-- ==== Sys2Proof/Word.lean ====
section
/-!
DEFINITION. The sizes of the machine's data (rules R7, R10, R11): everything is unsigned.
-/
namespace Sys2Proof

/-- A data byte: a general register, a timer, a RAM cell (rule R7). -/
abbrev Byte := BitVec 8

/-- A 12-bit address: `I`, `PC`, a stack slot, the operand `nnn` (rules R7, R13). -/
abbrev Addr := BitVec 12

/-- An instruction word (rule R90). -/
abbrev Word := BitVec 16

/-- The number of a general register, 0 to 15 (rules R13, R21). -/
abbrev Reg := Fin 16

/-- The code of a key, 0 to 15 (rules R45, R220). -/
abbrev Key := BitVec 4

end Sys2Proof
end

