-- ==== Sys2Proof/Syntax.lean ====
section
/-!
DEFINITION. The decoded instruction: one constructor for each of the 34 rows of the opcode table (rule R95), carrying
"only its operand fields" (rule R93).
-/
namespace Sys2Proof

/-- The instruction set. `x`, `y` are register numbers, `n` a count 0 to 15, `kk` a byte, `nnn` a 12-bit address
(rule R13); the types admit exactly the values the fields of rule R91 can hold. -/
inductive Instr where
  /-- `CLS` (rule R210). -/
  | cls
  /-- `RET` (rule R144). -/
  | ret
  /-- `JP addr` (rule R142). -/
  | jpAddr (nnn : Addr)
  /-- `CALL addr` (rule R143). -/
  | callAddr (nnn : Addr)
  /-- `SE Vx,kk` (rule R146). -/
  | seVxKk (x : Reg) (kk : Byte)
  /-- `SNE Vx,kk` (rule R147). -/
  | sneVxKk (x : Reg) (kk : Byte)
  /-- `SE Vx,Vy` (rule R148). -/
  | seVxVy (x y : Reg)
  /-- `LD Vx,kk` (rule R162). -/
  | ldVxKk (x : Reg) (kk : Byte)
  /-- `ADD Vx,kk` (rule R163). -/
  | addVxKk (x : Reg) (kk : Byte)
  /-- `LD Vx,Vy` (rule R164). -/
  | ldVxVy (x y : Reg)
  /-- `OR Vx,Vy` (rule R165). -/
  | orVxVy (x y : Reg)
  /-- `AND Vx,Vy` (rule R166). -/
  | andVxVy (x y : Reg)
  /-- `XOR Vx,Vy` (rule R167). -/
  | xorVxVy (x y : Reg)
  /-- `ADD Vx,Vy` (rule R168). -/
  | addVxVy (x y : Reg)
  /-- `SUB Vx,Vy` (rule R169). -/
  | subVxVy (x y : Reg)
  /-- `SHR Vx{,Vy}` (rule R171). -/
  | shrVxVy (x y : Reg)
  /-- `SUBN Vx,Vy` (rule R172). -/
  | subnVxVy (x y : Reg)
  /-- `SHL Vx{,Vy}` (rule R173). -/
  | shlVxVy (x y : Reg)
  /-- `SNE Vx,Vy` (rule R149). -/
  | sneVxVy (x y : Reg)
  /-- `LD I,addr` (rule R191). -/
  | ldIAddr (nnn : Addr)
  /-- `JP V0,addr` (rule R145). -/
  | jpV0Addr (nnn : Addr)
  /-- `RND Vx,kk` (rule R174). -/
  | rndVxKk (x : Reg) (kk : Byte)
  /-- `DRW Vx,Vy,n` (rule R211). -/
  | drwVxVyN (x y : Reg) (n : Fin 16)
  /-- `SKP Vx` (rule R221). -/
  | skpVx (x : Reg)
  /-- `SKNP Vx` (rule R222). -/
  | sknpVx (x : Reg)
  /-- `LD Vx,DT` (rule R223). -/
  | ldVxDt (x : Reg)
  /-- `LD Vx,K` (rule R224). -/
  | ldVxK (x : Reg)
  /-- `LD DT,Vx` (rule R226). -/
  | ldDtVx (x : Reg)
  /-- `LD ST,Vx` (rule R227). -/
  | ldStVx (x : Reg)
  /-- `ADD I,Vx` (rule R192). -/
  | addIVx (x : Reg)
  /-- `LD F,Vx` (rule R193). -/
  | ldFVx (x : Reg)
  /-- `LD B,Vx` (rule R194). -/
  | ldBVx (x : Reg)
  /-- `LD [I],Vx` (rule R195). -/
  | ldMemVx (x : Reg)
  /-- `LD Vx,[I]` (rule R196). -/
  | ldVxMem (x : Reg)
  deriving DecidableEq, Repr

end Sys2Proof
end

