-- ==== Sys2Proof/Config.lean ====
section
/-!
DEFINITION. The fixed sizes and addresses (rules R7, R8), the parameters an implementation chooses (rule R9), and the
free values: constants with no body, so that nothing can be proved of what they are.
-/
namespace Sys2Proof

/-- `MEM_SIZE`: RAM is 4096 bytes (rules R7, R8). -/
def memSize : Nat := 4096

/-- `PC_MAX`: the highest legal program counter (rules R8, R33). -/
def pcMax : Nat := 4094

/-- `STACK_DEPTH` (rule R8). -/
def stackDepth : Nat := 16

/-- `TICK_HZ` (rule R8). -/
def tickHz : Nat := 60

/-- `GLYPH_BYTES`: a glyph's stride and height (rules R8, R71). -/
def glyphBytes : Nat := 5

/-- `PROG_BASE`: where a program is loaded and where execution starts (rules R8, R283). -/
def progBase : Addr := 0x200#12

/-- The last address of the region reserved for the font (rule R70). -/
def fontLimit : Nat := 0x1FF

/-- The default `FONT_DATA`: the sixteen 5-byte glyphs of rule R72. PRESUMED by the spec itself (its list G3); log 13. -/
def defaultFontData : Vector Byte 80 :=
  #v[0xF0, 0x90, 0x90, 0x90, 0xF0,
     0x20, 0x60, 0x20, 0x20, 0x70,
     0xF0, 0x10, 0xF0, 0x80, 0xF0,
     0xF0, 0x10, 0xF0, 0x10, 0xF0,
     0x90, 0x90, 0xF0, 0x10, 0x10,
     0xF0, 0x80, 0xF0, 0x10, 0xF0,
     0xF0, 0x80, 0xF0, 0x90, 0xF0,
     0xF0, 0x10, 0x20, 0x40, 0x40,
     0xF0, 0x90, 0xF0, 0x90, 0xF0,
     0xF0, 0x90, 0xF0, 0x10, 0xF0,
     0xF0, 0x90, 0xF0, 0x90, 0x90,
     0xE0, 0x90, 0xE0, 0x90, 0xE0,
     0xF0, 0x80, 0x80, 0x80, 0xF0,
     0xE0, 0x90, 0x90, 0x90, 0xE0,
     0xF0, 0x80, 0xF0, 0x80, 0xF0,
     0xF0, 0x80, 0xF0, 0x80, 0x80]

/-- The parameters of rule R9: constant over a run, never written by an event, reset included (rule R48). A statement
about every state holds for every value of them. -/
structure Config where
  /-- `QUIRK_SHIFT_USES_VY`: `SHR` and `SHL` shift `Vy` (rule R170). -/
  quirkShiftUsesVy : Bool
  /-- `QUIRK_LOADSTORE_INC_I`: `LD [I],Vx` and `LD Vx,[I]` advance `I` (rule R197). -/
  quirkLoadStoreIncI : Bool
  /-- `FONT_BASE`: the address of glyph 0 (rule R71). -/
  fontBase : Addr
  /-- `FONT_DATA`: what the loader places at `FONT_BASE` (rule R72). -/
  fontData : Vector Byte 80
  /-- `IPS`: cycle requests a second (rule R264). -/
  ips : Rat
  deriving DecidableEq, Repr

namespace Config

/-- The values `State.reset` carries. `FONT_BASE` and `FONT_DATA` are the spec's defaults (rule R9). The quirk flags and
`IPS` are open in the spec: DESIGN CHOICE off, off and 1, unsafe for a claim about the reset state only; log 6. -/
def initial : Config :=
  { quirkShiftUsesVy := false, quirkLoadStoreIncI := false, fontBase := 0#12, fontData := defaultFontData, ips := 1 }

/-- The byte on the random input at each draw (rules R46, R174, list U4): a free value for each draw, safe; log 3. -/
opaque randomByte : Nat → Byte

/-- What a RAM byte that neither the loader nor the program has placed holds (rule R285, list U5): a free value for each
address, fixed over a run, safe; log 1. -/
opaque initialRam : Nat → Byte

end Config
end Sys2Proof
end

