-- ==== Sys2Proof/WellFormed.lean ====
section
/-!
DEFINITION. What is checked before a run. The operands of an instruction need no check: their types admit exactly what
the fields of an instruction word can hold ("a 4-bit field cannot be outside that range", rule R13; list U18). What can be
ill-formed is the configuration and the image the loader is given.
-/
namespace Sys2Proof

/-- The check on the configuration: the 80 font bytes lie in the font region, `FONT_BASE + 79 <= 0x1FF` (rule R9; list
U6 refuses any other value), and `IPS` is a positive rational (rule R9). All four pairs of quirk flags are accepted
(rules R48, R252). -/
def Config.wf (c : Config) : Bool :=
  decide (c.fontBase.toNat + 79 ≤ fontLimit) && decide (0 < c.ips)

/-- The check on a program image: it fits between `PROG_BASE` and the end of RAM, at most 3584 bytes (rule R285). -/
def programFits (image : List Byte) : Bool :=
  decide (progBase.toNat + image.length ≤ memSize)

end Sys2Proof
end

