-- ==== Sys2Proof/Decode.lean ====
section
/-!
DEFINITION. The decoder, total on every word and every list of bytes, and the encoder, both written from rule R95's map
and rule R92's formats; the opcode table itself as data.
-/
namespace Sys2Proof

/-- Why bytes are not an instruction. -/
inductive DecodeError where
  /-- The word matches no row of the opcode map (rules R94, R97); it carries the raw word. -/
  | unknownOpcode (word : Word)
  /-- Fewer than the two bytes an instruction has. No fetch gives this: a fetch is always two bytes (rule R64). -/
  | truncated
  deriving DecidableEq, Repr

/-! ### Fields of a word (rule R91) -/

/-- `w[15:12]`, the family selector. -/
def opField (w : Word) : BitVec 4 := w.extractLsb' 12 4

/-- `w[11:8]`, the first register number. -/
def xField (w : Word) : Reg := (w.extractLsb' 8 4).toFin

/-- `w[7:4]`, the second register number. -/
def yField (w : Word) : Reg := (w.extractLsb' 4 4).toFin

/-- `w[3:0]` as a count (sprite rows). -/
def nField (w : Word) : Fin 16 := (w.extractLsb' 0 4).toFin

/-- `w[3:0]` as the sub-operation selector of families 5, 8 and 9. -/
def subField (w : Word) : BitVec 4 := w.extractLsb' 0 4

/-- `w[7:0]`, the immediate byte, or the selector of families E and F. -/
def kkField (w : Word) : Byte := w.extractLsb' 0 8

/-- `w[11:0]`, the address. -/
def nnnField (w : Word) : Addr := w.extractLsb' 0 12

/-! ### The decoder (rule R94) -/

/-- Family 0 compares the whole word. -/
def decodeFamily0 (w : Word) : Except DecodeError Instr :=
  if w = 0x00E0#16 then .ok .cls
  else if w = 0x00EE#16 then .ok .ret
  else .error (.unknownOpcode w)

/-- Family 5 selects on `w[3:0]`. -/
def decodeFamily5 (w : Word) : Except DecodeError Instr :=
  if subField w = 0x0#4 then .ok (.seVxVy (xField w) (yField w)) else .error (.unknownOpcode w)

/-- Family 8 selects on `w[3:0]`. -/
def decodeFamily8 (w : Word) : Except DecodeError Instr :=
  match (subField w).toNat with
  | 0x0 => .ok (.ldVxVy (xField w) (yField w))
  | 0x1 => .ok (.orVxVy (xField w) (yField w))
  | 0x2 => .ok (.andVxVy (xField w) (yField w))
  | 0x3 => .ok (.xorVxVy (xField w) (yField w))
  | 0x4 => .ok (.addVxVy (xField w) (yField w))
  | 0x5 => .ok (.subVxVy (xField w) (yField w))
  | 0x6 => .ok (.shrVxVy (xField w) (yField w))
  | 0x7 => .ok (.subnVxVy (xField w) (yField w))
  | 0xE => .ok (.shlVxVy (xField w) (yField w))
  | _ => .error (.unknownOpcode w)

/-- Family 9 selects on `w[3:0]`. -/
def decodeFamily9 (w : Word) : Except DecodeError Instr :=
  if subField w = 0x0#4 then .ok (.sneVxVy (xField w) (yField w)) else .error (.unknownOpcode w)

/-- Family E selects on `w[7:0]`. -/
def decodeFamilyE (w : Word) : Except DecodeError Instr :=
  if kkField w = 0x9E#8 then .ok (.skpVx (xField w))
  else if kkField w = 0xA1#8 then .ok (.sknpVx (xField w))
  else .error (.unknownOpcode w)

/-- Family F selects on `w[7:0]`. -/
def decodeFamilyF (w : Word) : Except DecodeError Instr :=
  if kkField w = 0x07#8 then .ok (.ldVxDt (xField w))
  else if kkField w = 0x0A#8 then .ok (.ldVxK (xField w))
  else if kkField w = 0x15#8 then .ok (.ldDtVx (xField w))
  else if kkField w = 0x18#8 then .ok (.ldStVx (xField w))
  else if kkField w = 0x1E#8 then .ok (.addIVx (xField w))
  else if kkField w = 0x29#8 then .ok (.ldFVx (xField w))
  else if kkField w = 0x33#8 then .ok (.ldBVx (xField w))
  else if kkField w = 0x55#8 then .ok (.ldMemVx (xField w))
  else if kkField w = 0x65#8 then .ok (.ldVxMem (xField w))
  else .error (.unknownOpcode w)

/-- Decode of one word: a total function of the word alone (rules R94, R95, R122). -/
def decodeWord (w : Word) : Except DecodeError Instr :=
  match (opField w).toNat with
  | 0x0 => decodeFamily0 w
  | 0x1 => .ok (.jpAddr (nnnField w))
  | 0x2 => .ok (.callAddr (nnnField w))
  | 0x3 => .ok (.seVxKk (xField w) (kkField w))
  | 0x4 => .ok (.sneVxKk (xField w) (kkField w))
  | 0x5 => decodeFamily5 w
  | 0x6 => .ok (.ldVxKk (xField w) (kkField w))
  | 0x7 => .ok (.addVxKk (xField w) (kkField w))
  | 0x8 => decodeFamily8 w
  | 0x9 => decodeFamily9 w
  | 0xA => .ok (.ldIAddr (nnnField w))
  | 0xB => .ok (.jpV0Addr (nnnField w))
  | 0xC => .ok (.rndVxKk (xField w) (kkField w))
  | 0xD => .ok (.drwVxVyN (xField w) (yField w) (nField w))
  | 0xE => decodeFamilyE w
  | 0xF => decodeFamilyF w
  | _ => .error (.unknownOpcode w)

/-- A word from its two bytes in memory order: the byte at the lower address is the high byte (rules R64, R65). -/
def wordOfBytes (hi lo : Byte) : Word := hi ++ lo

/-- Decode from a list of bytes: the instruction and the bytes after it. -/
def decodeBytes (bytes : List Byte) : Except DecodeError (Instr × List Byte) :=
  match bytes with
  | hi :: lo :: rest =>
    match decodeWord (wordOfBytes hi lo) with
    | .ok i => .ok (i, rest)
    | .error e => .error e
  | _ => .error .truncated

/-! ### The encoder (rules R92, R95) -/

/-- Format `A`: `op nnn nnn nnn`. -/
def formatA (op : BitVec 4) (nnn : Addr) : Word := op ++ nnn

/-- Format `XK`: `op x kk kk`. -/
def formatXK (op : BitVec 4) (x : Reg) (kk : Byte) : Word := op ++ (BitVec.ofFin x : BitVec 4) ++ kk

/-- Format `XY`: `op x y sub`; format `XYN` puts the count `n` in the last nibble. -/
def formatXY (op : BitVec 4) (x y : Reg) (sub : BitVec 4) : Word :=
  op ++ (BitVec.ofFin x : BitVec 4) ++ (BitVec.ofFin y : BitVec 4) ++ sub

/-- The word of an instruction. -/
def encode (i : Instr) : Word :=
  match i with
  | .cls => 0x00E0#16
  | .ret => 0x00EE#16
  | .jpAddr nnn => formatA 0x1#4 nnn
  | .callAddr nnn => formatA 0x2#4 nnn
  | .seVxKk x kk => formatXK 0x3#4 x kk
  | .sneVxKk x kk => formatXK 0x4#4 x kk
  | .seVxVy x y => formatXY 0x5#4 x y 0x0#4
  | .ldVxKk x kk => formatXK 0x6#4 x kk
  | .addVxKk x kk => formatXK 0x7#4 x kk
  | .ldVxVy x y => formatXY 0x8#4 x y 0x0#4
  | .orVxVy x y => formatXY 0x8#4 x y 0x1#4
  | .andVxVy x y => formatXY 0x8#4 x y 0x2#4
  | .xorVxVy x y => formatXY 0x8#4 x y 0x3#4
  | .addVxVy x y => formatXY 0x8#4 x y 0x4#4
  | .subVxVy x y => formatXY 0x8#4 x y 0x5#4
  | .shrVxVy x y => formatXY 0x8#4 x y 0x6#4
  | .subnVxVy x y => formatXY 0x8#4 x y 0x7#4
  | .shlVxVy x y => formatXY 0x8#4 x y 0xE#4
  | .sneVxVy x y => formatXY 0x9#4 x y 0x0#4
  | .ldIAddr nnn => formatA 0xA#4 nnn
  | .jpV0Addr nnn => formatA 0xB#4 nnn
  | .rndVxKk x kk => formatXK 0xC#4 x kk
  | .drwVxVyN x y n => formatXY 0xD#4 x y (BitVec.ofFin n : BitVec 4)
  | .skpVx x => formatXK 0xE#4 x 0x9E#8
  | .sknpVx x => formatXK 0xE#4 x 0xA1#8
  | .ldVxDt x => formatXK 0xF#4 x 0x07#8
  | .ldVxK x => formatXK 0xF#4 x 0x0A#8
  | .ldDtVx x => formatXK 0xF#4 x 0x15#8
  | .ldStVx x => formatXK 0xF#4 x 0x18#8
  | .addIVx x => formatXK 0xF#4 x 0x1E#8
  | .ldFVx x => formatXK 0xF#4 x 0x29#8
  | .ldBVx x => formatXK 0xF#4 x 0x33#8
  | .ldMemVx x => formatXK 0xF#4 x 0x55#8
  | .ldVxMem x => formatXK 0xF#4 x 0x65#8

/-- The bytes of a word in memory order (rule R65). -/
def bytesOfWord (w : Word) : List Byte := [w.extractLsb' 8 8, w.extractLsb' 0 8]

/-! ### The opcode map as data (rule R95) -/

/-- The mask and match of an instruction's row in rule R95's map. -/
def opcodeRow (i : Instr) : Word × Word :=
  match i with
  | .cls => (0xFFFF#16, 0x00E0#16)
  | .ret => (0xFFFF#16, 0x00EE#16)
  | .jpAddr _ => (0xF000#16, 0x1000#16)
  | .callAddr _ => (0xF000#16, 0x2000#16)
  | .seVxKk _ _ => (0xF000#16, 0x3000#16)
  | .sneVxKk _ _ => (0xF000#16, 0x4000#16)
  | .seVxVy _ _ => (0xF00F#16, 0x5000#16)
  | .ldVxKk _ _ => (0xF000#16, 0x6000#16)
  | .addVxKk _ _ => (0xF000#16, 0x7000#16)
  | .ldVxVy _ _ => (0xF00F#16, 0x8000#16)
  | .orVxVy _ _ => (0xF00F#16, 0x8001#16)
  | .andVxVy _ _ => (0xF00F#16, 0x8002#16)
  | .xorVxVy _ _ => (0xF00F#16, 0x8003#16)
  | .addVxVy _ _ => (0xF00F#16, 0x8004#16)
  | .subVxVy _ _ => (0xF00F#16, 0x8005#16)
  | .shrVxVy _ _ => (0xF00F#16, 0x8006#16)
  | .subnVxVy _ _ => (0xF00F#16, 0x8007#16)
  | .shlVxVy _ _ => (0xF00F#16, 0x800E#16)
  | .sneVxVy _ _ => (0xF00F#16, 0x9000#16)
  | .ldIAddr _ => (0xF000#16, 0xA000#16)
  | .jpV0Addr _ => (0xF000#16, 0xB000#16)
  | .rndVxKk _ _ => (0xF000#16, 0xC000#16)
  | .drwVxVyN _ _ _ => (0xF000#16, 0xD000#16)
  | .skpVx _ => (0xF0FF#16, 0xE09E#16)
  | .sknpVx _ => (0xF0FF#16, 0xE0A1#16)
  | .ldVxDt _ => (0xF0FF#16, 0xF007#16)
  | .ldVxK _ => (0xF0FF#16, 0xF00A#16)
  | .ldDtVx _ => (0xF0FF#16, 0xF015#16)
  | .ldStVx _ => (0xF0FF#16, 0xF018#16)
  | .addIVx _ => (0xF0FF#16, 0xF01E#16)
  | .ldFVx _ => (0xF0FF#16, 0xF029#16)
  | .ldBVx _ => (0xF0FF#16, 0xF033#16)
  | .ldMemVx _ => (0xF0FF#16, 0xF055#16)
  | .ldVxMem _ => (0xF0FF#16, 0xF065#16)

/-- Rule R95's 34 rows in the table's order, each as a pair of mask and match. -/
def opcodeRows : List (Word × Word) :=
  [(0xFFFF#16, 0x00E0#16), (0xFFFF#16, 0x00EE#16), (0xF000#16, 0x1000#16), (0xF000#16, 0x2000#16),
   (0xF000#16, 0x3000#16), (0xF000#16, 0x4000#16), (0xF00F#16, 0x5000#16), (0xF000#16, 0x6000#16),
   (0xF000#16, 0x7000#16)] ++
  [(0xF00F#16, 0x8000#16), (0xF00F#16, 0x8001#16), (0xF00F#16, 0x8002#16), (0xF00F#16, 0x8003#16),
   (0xF00F#16, 0x8004#16), (0xF00F#16, 0x8005#16), (0xF00F#16, 0x8006#16), (0xF00F#16, 0x8007#16),
   (0xF00F#16, 0x800E#16), (0xF00F#16, 0x9000#16)] ++
  [(0xF000#16, 0xA000#16), (0xF000#16, 0xB000#16), (0xF000#16, 0xC000#16), (0xF000#16, 0xD000#16),
   (0xF0FF#16, 0xE09E#16), (0xF0FF#16, 0xE0A1#16)] ++
  [(0xF0FF#16, 0xF007#16), (0xF0FF#16, 0xF00A#16), (0xF0FF#16, 0xF015#16), (0xF0FF#16, 0xF018#16),
   (0xF0FF#16, 0xF01E#16), (0xF0FF#16, 0xF029#16), (0xF0FF#16, 0xF033#16), (0xF0FF#16, 0xF055#16),
   (0xF0FF#16, 0xF065#16)]

/-- A word matches a row when `w & mask = match` (rule R94). -/
def matchesRow (w : Word) (row : Word × Word) : Bool := w &&& row.1 == row.2

/-! ### The host's table words -/

/-- The instruction the decoder reads from a table row's word `w` of `nbits` bits: the word's two bytes laid out as the
hardware stores them, high byte first (rule R65), and given to `decodeBytes`. -/
def decodeTableWord (nbits w : Nat) : Option Instr :=
  match decodeBytes (bytesOfWord (BitVec.ofNat 16 (w % 2 ^ nbits))) with
  | .ok (i, _) => some i
  | .error _ => none

end Sys2Proof
end

