-- ==== Sys2Proof/Machine/State.lean ====
section
/-!
DEFINITION. The machine's state as plain data (rule R20), the events and inputs that change it (rules R14, R40), the
reasons it can halt (rule R240), and the state after reset (rule R37).
-/
namespace Sys2Proof.Machine

/-- The interface's faults. There is none: every error of this hardware is a halt, whose entry the spec describes (rule
R241), so it is a next state with `STATUS = Halted(reason)`. Nobody raises a fault; safe. Log 9. -/
inductive Fault where
  deriving DecidableEq, Repr

/-- The interface's refusals. -/
inductive Refusal where
  /-- An instruction of the table without a meaning. Only an arm of `exec` may raise it, and none does: every row has
  its meaning. Safe. -/
  | notModelled (mnemonic : String)
  deriving DecidableEq, Repr

/-- Why the engine halted, with the value recorded (rule R240). -/
inductive HaltReason where
  /-- The word fetched is no instruction (rule R243). -/
  | unknownOpcode (word : Word)
  /-- A data byte above 4095, or a new `PC` or return address above 4094; the offending address, over the integers
  (rules R61, R244). -/
  | outOfBounds (addr : Nat)
  /-- `CALL` with `SP = 16` (rule R245). -/
  | stackOverflow
  /-- `RET` with `SP = 0` (rule R246). -/
  | stackUnderflow
  /-- A transfer to an odd address (rule R247). -/
  | misalignedPC (addr : Addr)
  deriving DecidableEq, Repr

/-- `STATUS`, the engine's state machine (rule R30). -/
inductive Status where
  | running
  | waitingForKey
  | halted (reason : HaltReason)
  deriving DecidableEq, Repr

/-- The two requests the sequencer issues (rules R42, R43, R264). -/
inductive Request where
  | cycle
  | tick
  deriving DecidableEq, Repr

/-- What can arrive at the machine between two events (rules R14, R40). -/
inductive Input where
  /-- The sequencer issues a cycle request or a tick request (rules R42, R43). -/
  | request (r : Request)
  /-- A key-press event with its key code (rules R45, R225). -/
  | keyPress (k : Key)
  /-- The surrounding program replaces the whole keypad snapshot (rule R129). -/
  | keysUpdate (snapshot : BitVec 16)
  /-- Explicit reset (rules R47, R280). -/
  | reset
  /-- The sequencer's start (`true`) or pause (`false`) control (rules R52, R266). -/
  | setRun (on : Bool)
  /-- One sequencer iteration, `dt` seconds after the previous one (rule R265). `order` says how the two request loops
  interleave, which the spec leaves free. -/
  | elapse (dt : Rat) (order : List Request)
  deriving DecidableEq, Repr

/-- The framebuffer: 32 rows of 64 pixels (rule R29). -/
abbrev Screen := Vector (Vector Bool 64) 32

/-- RAM: the bytes that have been placed, by the loader or by a store, with their addresses (rule R60). Canonical when the
addresses rise strictly. An unlisted address holds no known byte; log 1. -/
abbrev Memory := List Host.Cell

/-- Everything the spec gives the machine (rule R20), its inputs held between events (rules R44, R48, R52), the
sequencer's budgets (rule R265), and the model's own `rndDraws` and `pending`. -/
structure State where
  /-- `V[0]` to `V[15]` (rule R21); `V[15]` is `VF` (rule R22). -/
  v : Vector Byte 16
  /-- `I` (rule R23). -/
  i : Addr
  /-- `PC` (rule R24). -/
  pc : Addr
  /-- `SP`: the number of return addresses, 0 to 16 (rule R25). -/
  sp : Fin 17
  /-- `STACK[0]` to `STACK[15]` (rule R26). -/
  stack : Vector Addr 16
  /-- `DT` (rule R27). -/
  dt : Byte
  /-- `ST` (rule R28). -/
  st : Byte
  /-- `FB` (rule R29). -/
  fb : Screen
  /-- `STATUS` (rule R30). -/
  status : Status
  /-- `WAIT_X` (rule R32). -/
  waitX : Reg
  /-- `MEM` (rule R60). -/
  mem : Memory
  /-- The keypad snapshot input, bit `k` for key `k` (rule R44). -/
  keys : BitVec 16
  /-- The configuration inputs and parameters (rules R9, R48). -/
  config : Config
  /-- The sequencer's start/pause input (rule R52). -/
  run : Bool
  /-- The sequencer's cycle budget (rule R265). -/
  cycleBudget : Rat
  /-- The sequencer's tick budget (rule R265). -/
  tickBudget : Rat
  /-- The model's own: how many random bytes have been drawn (rule R46); log 3. -/
  rndDraws : Nat
  /-- The model's own: the inputs that arrive before the next unprompted cycle request, first to arrive first; log 2. -/
  pending : List Input
  deriving DecidableEq, Repr

/-- A framebuffer with every pixel 0. -/
def Screen.clear : Screen := Vector.replicate 32 (Vector.replicate 64 false)

/-- The machine right after reset: rules R37, R280 and R265 (budgets 0). RAM has nothing placed. The values the spec
does not give are DESIGN CHOICES, unsafe for claims about this state: `WAIT_X` (log 4), the key snapshot (log 5), the
configuration (log 6), `run` (log 7), and the model's own fields (logs 2, 3). -/
def State.reset : State :=
  { v := Vector.replicate 16 0#8
    i := 0#12
    pc := progBase
    sp := 0
    stack := Vector.replicate 16 0#12
    dt := 0#8
    st := 0#8
    fb := Screen.clear
    status := .running
    waitX := 0
    mem := []
    keys := 0#16
    config := Config.initial
    run := true
    cycleBudget := 0
    tickBudget := 0
    rndDraws := 0
    pending := [] }

/-- What one instruction or one step answers. -/
abbrev Result := Host.Outcome State Fault Refusal

end Sys2Proof.Machine
end

