-- ==== Sys2Proof/Machine/Ops.lean ====
section
/-!
DEFINITION. The shared operations: registers, memory, stack, framebuffer; raising a halt (the hardware's only exception,
rule R241) and the reset that is the only way out of it (rule R251); finishing an instruction (`Advance`, rule R124);
fetch (rule R121); the loader's operations (rule R285).
-/
namespace Sys2Proof.Machine

/-! ### General registers (rule R21) -/

/-- `V[x]`. -/
def State.readV (s : State) (x : Reg) : Byte := s.v[x]

/-- `V[x] <- b`. -/
def State.writeV (s : State) (x : Reg) (b : Byte) : State := { s with v := s.v.set x b }

/-! ### Memory (rules R60 to R63) -/

/-- The byte placed at `a`, if one has been. -/
def Memory.find (m : Memory) (a : Nat) : Option Byte :=
  match m with
  | [] => none
  | (k, b) :: rest => if k = a then some b else Memory.find rest a

/-- `MEM[a] <- b`, keeping the addresses strictly rising. -/
def Memory.write (m : Memory) (a : Nat) (b : Byte) : Memory :=
  match m with
  | [] => [(a, b)]
  | (k, c) :: rest =>
    if a < k then (a, b) :: (k, c) :: rest
    else if a = k then (a, b) :: rest
    else (k, c) :: Memory.write rest a b

/-- The addresses rise strictly from `lo` on and are all RAM addresses. -/
def Memory.risesFrom (lo : Nat) (m : Memory) : Bool :=
  match m with
  | [] => true
  | (k, _) :: rest => decide (lo ≤ k) && decide (k < memSize) && Memory.risesFrom (k + 1) rest

/-- The canonical form: addresses strictly rising, all below 4096. An unlisted address has no known byte, so no entry can
equal what it reads as; log 1. -/
def Memory.wf (m : Memory) : Bool := Memory.risesFrom 0 m

/-- Several bytes at ascending addresses from `a` (rule R63). -/
def Memory.place (m : Memory) (a : Nat) (bytes : List Byte) : Memory :=
  match bytes with
  | [] => m
  | b :: rest => Memory.place (Memory.write m a b) (a + 1) rest

/-- `MEM[a]`: the byte most recently stored or loaded there (rule R62); where none has been, a free value fixed over the
run (rule R285, list U5; log 1). -/
def State.readByte (s : State) (a : Nat) : Byte := (s.mem.find a).getD (Config.initialRam a)

/-- `MemWrite(a, 1, b)` after its bounds check (rule R63). -/
def State.writeByte (s : State) (a : Nat) (b : Byte) : State := { s with mem := s.mem.write a b }

/-- The bounds check of an access to `n` bytes at `addr`, over the integers: the reason to halt when any of them is above
4095, recording the lowest such address (rules R61, R62). No byte, no check (rule R211, `n = 0`). -/
def boundsError (addr n : Nat) : Option HaltReason :=
  if addr + n > memSize ∧ n ≠ 0 then some (.outOfBounds (max addr memSize)) else none

/-! ### Taking the exception, and the way back -/

/-- `raise Halt(reason)`: `STATUS` becomes `Halted(reason)` and nothing else changes; `PC` keeps the address of the
instruction that raised it (rule R241). -/
def State.raiseHalt (s : State) (reason : HaltReason) : State := { s with status := .halted reason }

/-- An instruction that halts has no other effect (rules R123, R242). -/
def State.halt (s : State) (reason : HaltReason) : Result := .next (s.raiseHalt reason)

/-- The `Reset` event, the only way out of `Halted` (rules R251, R280, R281): every piece of the block's state takes its
reset value and the budgets become 0 (rule R265); RAM, the inputs and the configuration stay (rule R282). -/
def State.resetEvent (s : State) : State :=
  { State.reset with
    mem := s.mem
    keys := s.keys
    config := s.config
    run := s.run
    rndDraws := s.rndDraws
    pending := s.pending }

/-! ### Finishing an instruction -/

/-- `Advance(k)` at the end of an instruction that began in `s` and whose other writes give `t` (rules R123, R124): a
new `PC` above 4094 halts, and then none of the writes happens. The sum is over the integers. -/
def State.finish (s t : State) (k : Nat) : Result :=
  if s.pc.toNat + k > pcMax then s.halt (.outOfBounds (s.pc.toNat + k))
  else .next { t with pc := BitVec.ofNat 12 (s.pc.toNat + k) }

/-- `Advance(4)` if the condition holds, else `Advance(2)` (rules R124, R150). -/
def State.skipIf (s : State) (condition : Bool) : Result := s.finish s (if condition then 4 else 2)

/-- A transfer to `target` from an instruction that began in `s` and whose other writes give `t`: an odd target halts
(rule R141). -/
def State.transfer (s t : State) (target : Addr) : Result :=
  if target.getLsbD 0 then s.halt (.misalignedPC target) else .next { t with pc := target }

/-- An instruction that accesses `n` bytes at `I`: all of them are checked before any moves (rules R61, R190, R242); then
the writes that give `t`, and `Advance(2)`. -/
def State.accessAtI (s t : State) (n : Nat) : Result :=
  match boundsError s.i.toNat n with
  | some reason => s.halt reason
  | none => s.finish t 2

/-! ### The return stack (rule R26) -/

/-- Push: `STACK[SP] <- a; SP <- SP + 1`, or `StackOverflow` when `SP = 16` (rule R245). -/
def State.push (s : State) (a : Addr) : Except HaltReason State :=
  if h : s.sp.val < 16 then
    .ok { s with stack := s.stack.set s.sp.val a h, sp := ⟨s.sp.val + 1, by omega⟩ }
  else .error .stackOverflow

/-- Pop: `SP <- SP - 1` and the value of `STACK[SP]` after that, the slot kept, or `StackUnderflow` when `SP = 0`
(rule R246). -/
def State.pop (s : State) : Except HaltReason (Addr × State) :=
  if h : 0 < s.sp.val then
    .ok (s.stack[s.sp.val - 1]'(by omega), { s with sp := ⟨s.sp.val - 1, by omega⟩ })
  else .error .stackUnderflow

/-! ### The framebuffer (rule R29) -/

/-- `FB[r][c]`. -/
def Screen.pixel (fb : Screen) (r : Fin 32) (c : Fin 64) : Bool := (fb[r])[c]

/-- `FB[r][c] <- b`. -/
def Screen.setPixel (fb : Screen) (r : Fin 32) (c : Fin 64) (b : Bool) : Screen := fb.set r ((fb[r]).set c b)

/-! ### Fetch (rules R64, R121) -/

/-- `MemRead(PC, 2)`: the big-endian word at `PC`. The bounds error is rule R62's; it cannot arise while `PC <= 4094`. -/
def State.fetch (s : State) : Except HaltReason Word :=
  match boundsError s.pc.toNat 2 with
  | some reason => .error reason
  | none => .ok (wordOfBytes (s.readByte s.pc.toNat) (s.readByte (s.pc.toNat + 1)))

/-! ### The loader, outside the block (rules R285, R286) -/

/-- The loader places bytes in RAM from address `a` on, before a run. -/
def State.loadBytes (s : State) (a : Nat) (bytes : List Byte) : State := { s with mem := s.mem.place a bytes }

/-- The loader places the 80 font bytes at `FONT_BASE` (rules R71, R285). -/
def State.loadFont (s : State) : State := s.loadBytes s.config.fontBase.toNat s.config.fontData.toList

/-- The loader places a program image at 0x200, if it fits (rule R285). -/
def State.loadProgram (s : State) (image : List Byte) : Option State :=
  if programFits image then some (s.loadBytes progBase.toNat image) else none

end Sys2Proof.Machine
end

