-- ==== Sys2Proof/Machine/Operands.lean ====
section
/-!
DEFINITION. How operands are formed: the shift source and its quirk, key and glyph numbers, decimal digits, register
groups, sprite coordinates, the `JP V0` target.
-/
namespace Sys2Proof.Machine

/-- The source value of `SHR` and `SHL`: `V[y]` under `QUIRK_SHIFT_USES_VY`, else `V[x]` (rule R170). -/
def State.shiftSource (s : State) (x y : Reg) : Byte :=
  if s.config.quirkShiftUsesVy then s.readV y else s.readV x

/-- The key a register value names: its low nibble (rule R220). -/
def keyNumber (b : Byte) : Nat := b.toNat % 16

/-- `KEYS[k]` for the key that `V[x]` names (rules R220, R221). -/
def State.keyDown (s : State) (x : Reg) : Bool := s.keys.getLsbD (keyNumber (s.readV x))

/-- The address of the glyph for the low nibble of a register value, `(FONT_BASE + 5 * d) mod 4096` (rule R193). -/
def State.glyphAddress (s : State) (b : Byte) : Addr :=
  BitVec.ofNat 12 (s.config.fontBase.toNat + glyphBytes * (b.toNat % 16))

/-- The three decimal digits of a byte, hundreds first (rules R128, R194). -/
def decimalDigits (b : Byte) : List Byte :=
  [BitVec.ofNat 8 (b.toNat / 100), BitVec.ofNat 8 (b.toNat / 10 % 10), BitVec.ofNat 8 (b.toNat % 10)]

/-- The target of `JP V0,addr`: `(nnn + V0) mod 4096` (rule R145). -/
def State.jumpV0Target (s : State) (nnn : Addr) : Addr := BitVec.ofNat 12 (nnn.toNat + (s.readV 0).toNat)

/-- The registers `V0` to `Vx` in ascending order (rules R195, R196). -/
def regsThrough (x : Reg) : List Reg := (List.range (x.val + 1)).map (Fin.ofNat 16)

/-- Store `V[j]` at `I + j` for each register of the list, `I` being that of `s0` (rule R195). -/
def storeRegs (s0 s : State) (regs : List Reg) : State :=
  match regs with
  | [] => s
  | j :: rest => storeRegs s0 (s.writeByte (s0.i.toNat + j.val) (s0.readV j)) rest

/-- Load `V[j]` from `I + j` for each register of the list, `I` and the bytes being those of `s0` (rule R196). -/
def loadRegs (s0 s : State) (regs : List Reg) : State :=
  match regs with
  | [] => s
  | j :: rest => loadRegs s0 (s.writeV j (s0.readByte (s0.i.toNat + j.val))) rest

/-- The optional increment of `I` after a register group has moved: `(I + x + 1) mod 4096` under
`QUIRK_LOADSTORE_INC_I` (rule R197). -/
def State.bumpI (s : State) (x : Reg) : State :=
  if s.config.quirkLoadStoreIncI then { s with i := BitVec.ofNat 12 (s.i.toNat + x.val + 1) } else s

/-- The framebuffer row of sprite row `r`: `(Vy mod 32 + r) mod 32` (rule R212). -/
def spriteRow (vy : Byte) (r : Nat) : Fin 32 := Fin.ofNat 32 (vy.toNat % 32 + r)

/-- The framebuffer column of sprite column `c`: `(Vx mod 64 + c) mod 64` (rule R212). -/
def spriteCol (vx : Byte) (c : Nat) : Fin 64 := Fin.ofNat 64 (vx.toNat % 64 + c)

end Sys2Proof.Machine
end

