-- ==== Sys2Proof/Machine/Flags.lean ====
section
/-!
DEFINITION. The values written to `VF` (rule R22), and the order in which a result and its flag are written (rule R161).
-/
namespace Sys2Proof.Machine

/-- A flag as the byte `VF` receives: 1 or 0 (rule R22). -/
def flagByte (b : Bool) : Byte := if b then 1#8 else 0#8

/-- Carry of `a + b`: the sum before wrapping is above 255 (rules R127, R168). -/
def carry (a b : Byte) : Byte := flagByte (decide (a.toNat + b.toNat > 255))

/-- Not-borrow of `a - b`: 1 when `a >= b` (rules R127, R169, R172). -/
def notBorrow (a b : Byte) : Byte := flagByte (decide (a.toNat ≥ b.toNat))

/-- The bit `SHR` shifts out: bit 0 of the source (rule R171). -/
def shiftedOutRight (b : Byte) : Byte := flagByte (b.getLsbD 0)

/-- The bit `SHL` shifts out: bit 7 of the source (rule R173). -/
def shiftedOutLeft (b : Byte) : Byte := flagByte (b.getLsbD 7)

/-- The result to `V[x]` first, the flag to `V[15]` second, so that for `x = 15` the flag is what stays (rule R161). -/
def State.writeResultFlag (s : State) (x : Reg) (result flag : Byte) : State := (s.writeV x result).writeV 15 flag

/-! ### The collision flag of `DRW` (rules R211, R213) -/

/-- One sprite bit 1 at a pixel: the pixel is inverted, and a pixel that was set is a collision. -/
def drawPixel (acc : Screen × Bool) (row : Fin 32) (col : Fin 64) : Screen × Bool :=
  (acc.1.setPixel row col (!acc.1.pixel row col), acc.2 || acc.1.pixel row col)

/-- The columns `cs` of one sprite row: bit `7 - c` of the byte goes to column `c` of the sprite (rule R212). -/
def drawRow (acc : Screen × Bool) (sprite : Byte) (row : Fin 32) (vx : Byte) (cs : List Nat) : Screen × Bool :=
  match cs with
  | [] => acc
  | c :: rest =>
    drawRow (if sprite.getLsbD (7 - c) then drawPixel acc row (spriteCol vx c) else acc) sprite row vx rest

/-- The sprite rows `rs`: row `r` is the byte at `I + r`, all eight columns of it (rule R211). -/
def drawRows (s : State) (acc : Screen × Bool) (vx vy : Byte) (rs : List Nat) : Screen × Bool :=
  match rs with
  | [] => acc
  | r :: rest =>
    drawRows s (drawRow acc (s.readByte (s.i.toNat + r)) (spriteRow vy r) vx (List.range 8)) vx vy rest

/-- The framebuffer after `n` sprite rows are drawn at `(Vx mod 64, Vy mod 32)`, and whether any pixel went from 1 to 0. -/
def State.drawSprite (s : State) (vx vy : Byte) (n : Nat) : Screen × Bool :=
  drawRows s (s.fb, false) vx vy (List.range n)

end Sys2Proof.Machine
end

