-- ==== Sys2Proof/Machine/Alu.lean ====
section
/-!
DEFINITION. Register loads, arithmetic, logic, shifts, random (42_load_alu.md). Operands are read before any write and
every form ends with `Advance(2)` (rule R160).
-/
namespace Sys2Proof.Machine

/-- `LD Vx,kk` (rule R162). -/
def execLdVxKk (x : Reg) (kk : Byte) (s : State) : Result := s.finish (s.writeV x kk) 2

/-- `ADD Vx,kk` (rule R163): no flag. -/
def execAddVxKk (x : Reg) (kk : Byte) (s : State) : Result := s.finish (s.writeV x (s.readV x + kk)) 2

/-- `LD Vx,Vy` (rule R164). -/
def execLdVxVy (x y : Reg) (s : State) : Result := s.finish (s.writeV x (s.readV y)) 2

/-- `OR Vx,Vy` (rule R165): `VF` unaffected. -/
def execOrVxVy (x y : Reg) (s : State) : Result := s.finish (s.writeV x (s.readV x ||| s.readV y)) 2

/-- `AND Vx,Vy` (rule R166): `VF` unaffected. -/
def execAndVxVy (x y : Reg) (s : State) : Result := s.finish (s.writeV x (s.readV x &&& s.readV y)) 2

/-- `XOR Vx,Vy` (rule R167): `VF` unaffected. -/
def execXorVxVy (x y : Reg) (s : State) : Result := s.finish (s.writeV x (s.readV x ^^^ s.readV y)) 2

/-- `ADD Vx,Vy` (rule R168). -/
def execAddVxVy (x y : Reg) (s : State) : Result :=
  s.finish (s.writeResultFlag x (s.readV x + s.readV y) (carry (s.readV x) (s.readV y))) 2

/-- `SUB Vx,Vy` (rule R169). -/
def execSubVxVy (x y : Reg) (s : State) : Result :=
  s.finish (s.writeResultFlag x (s.readV x - s.readV y) (notBorrow (s.readV x) (s.readV y))) 2

/-- `SUBN Vx,Vy` (rule R172): the operands exchanged, the destination still `V[x]`. -/
def execSubnVxVy (x y : Reg) (s : State) : Result :=
  s.finish (s.writeResultFlag x (s.readV y - s.readV x) (notBorrow (s.readV y) (s.readV x))) 2

/-- `SHR Vx{,Vy}` (rule R171): a logical shift of the source of rule R170. -/
def execShrVxVy (x y : Reg) (s : State) : Result :=
  s.finish (s.writeResultFlag x (s.shiftSource x y >>> 1) (shiftedOutRight (s.shiftSource x y))) 2

/-- `SHL Vx{,Vy}` (rule R173). -/
def execShlVxVy (x y : Reg) (s : State) : Result :=
  s.finish (s.writeResultFlag x (s.shiftSource x y <<< 1) (shiftedOutLeft (s.shiftSource x y))) 2

/-- `RND Vx,kk` (rule R174): the byte drawn is a free value, fresh at each executed `RND`; log 3. -/
def execRndVxKk (x : Reg) (kk : Byte) (s : State) : Result :=
  s.finish { s.writeV x (Config.randomByte s.rndDraws &&& kk) with rndDraws := s.rndDraws + 1 } 2

end Sys2Proof.Machine
end

