-- ==== Sys2Proof/Machine/Control.lean ====
section
/-!
DEFINITION. Control transfer (41_control_transfer.md): jumps, call, return, conditional skips. None writes a general
register, `I`, a timer, the framebuffer or RAM (rule R140).
-/
namespace Sys2Proof.Machine

/-- `JP addr` (rule R142). -/
def execJpAddr (nnn : Addr) (s : State) : Result := s.transfer s nnn

/-- `CALL addr` (rule R143): the checks in the order of rule R248: overflow, return address, alignment. -/
def execCallAddr (nnn : Addr) (s : State) : Result :=
  match s.push (BitVec.ofNat 12 (s.pc.toNat + 2)) with
  | .error reason => s.halt reason
  | .ok t =>
    if s.pc.toNat + 2 > pcMax then s.halt (.outOfBounds (s.pc.toNat + 2))
    else s.transfer t nnn

/-- `RET` (rule R144): the popped value is not checked. -/
def execRet (s : State) : Result :=
  match s.pop with
  | .error reason => s.halt reason
  | .ok (a, t) => .next { t with pc := a }

/-- `JP V0,addr` (rule R145). -/
def execJpV0Addr (nnn : Addr) (s : State) : Result := s.transfer s (s.jumpV0Target nnn)

/-- `SE Vx,kk` (rule R146). -/
def execSeVxKk (x : Reg) (kk : Byte) (s : State) : Result := s.skipIf (s.readV x == kk)

/-- `SNE Vx,kk` (rule R147). -/
def execSneVxKk (x : Reg) (kk : Byte) (s : State) : Result := s.skipIf (s.readV x != kk)

/-- `SE Vx,Vy` (rule R148). -/
def execSeVxVy (x y : Reg) (s : State) : Result := s.skipIf (s.readV x == s.readV y)

/-- `SNE Vx,Vy` (rule R149). -/
def execSneVxVy (x y : Reg) (s : State) : Result := s.skipIf (s.readV x != s.readV y)

end Sys2Proof.Machine
end

