-- ==== Sys2Proof/Machine/Display.lean ====
section
/-!
DEFINITION. The display instructions (44_display.md).
-/
namespace Sys2Proof.Machine

/-- `CLS` (rule R210): `VF` is not written. -/
def execCls (s : State) : Result := s.finish { s with fb := Screen.clear } 2

/-- `DRW Vx,Vy,n` (rule R211): the coordinates are read before `VF` is written; `n = 0` reads no memory and clears `VF`. -/
def execDrwVxVyN (x y : Reg) (n : Fin 16) (s : State) : Result :=
  s.accessAtI
    ({ s with fb := (s.drawSprite (s.readV x) (s.readV y) n.val).1 }.writeV 15
      (flagByte (s.drawSprite (s.readV x) (s.readV y) n.val).2))
    n.val

end Sys2Proof.Machine
end

