-- ==== Sys2Proof/Machine/Index.lean ====
section
/-!
DEFINITION. The address register and memory transfers (43_index_memory.md). None writes `VF` as a flag (rule R190).
-/
namespace Sys2Proof.Machine

/-- `LD I,addr` (rule R191). -/
def execLdIAddr (nnn : Addr) (s : State) : Result := s.finish { s with i := nnn } 2

/-- `ADD I,Vx` (rule R192): mod 4096, no flag. -/
def execAddIVx (x : Reg) (s : State) : Result :=
  s.finish { s with i := BitVec.ofNat 12 (s.i.toNat + (s.readV x).toNat) } 2

/-- `LD F,Vx` (rule R193): computes an address, reads no memory. -/
def execLdFVx (x : Reg) (s : State) : Result := s.finish { s with i := s.glyphAddress (s.readV x) } 2

/-- `LD B,Vx` (rule R194): three digits at `I`, `I + 1`, `I + 2`; `I` is not moved by either quirk. -/
def execLdBVx (x : Reg) (s : State) : Result :=
  s.accessAtI { s with mem := s.mem.place s.i.toNat (decimalDigits (s.readV x)) } 3

/-- `LD [I],Vx` (rules R195, R197). -/
def execLdMemVx (x : Reg) (s : State) : Result :=
  s.accessAtI ((storeRegs s s (regsThrough x)).bumpI x) (x.val + 1)

/-- `LD Vx,[I]` (rules R196, R197). -/
def execLdVxMem (x : Reg) (s : State) : Result :=
  s.accessAtI ((loadRegs s s (regsThrough x)).bumpI x) (x.val + 1)

end Sys2Proof.Machine
end

