-- ==== Sys2Proof/Machine/KeypadTimers.lean ====
section
/-!
DEFINITION. The keypad and timer instructions (45_keypad_timers.md).
-/
namespace Sys2Proof.Machine

/-- `SKP Vx` (rule R221). -/
def execSkpVx (x : Reg) (s : State) : Result := s.skipIf (s.keyDown x)

/-- `SKNP Vx` (rule R222). -/
def execSknpVx (x : Reg) (s : State) : Result := s.skipIf (!s.keyDown x)

/-- `LD Vx,DT` (rule R223). -/
def execLdVxDt (x : Reg) (s : State) : Result := s.finish (s.writeV x s.dt) 2

/-- `LD Vx,K` (rule R224), the cycle that executes it: latch `x` and wait, `PC` unchanged; the check that completion
cannot fail is made now. -/
def execLdVxK (x : Reg) (s : State) : Result :=
  if s.pc.toNat + 2 > pcMax then s.halt (.outOfBounds (s.pc.toNat + 2))
  else .next { s with waitX := x, status := .waitingForKey }

/-- `LD DT,Vx` (rule R226). -/
def execLdDtVx (x : Reg) (s : State) : Result := s.finish { s with dt := s.readV x } 2

/-- `LD ST,Vx` (rule R227). -/
def execLdStVx (x : Reg) (s : State) : Result := s.finish { s with st := s.readV x } 2

end Sys2Proof.Machine
end

