-- ==== Sys2Proof/Machine/Events.lean ====
section
/-!
DEFINITION. The atomic events (rule R14): the cycle, the timer tick, the key press, the keypad update (reset is in
Ops.lean); and the sequencer that issues cycle and tick requests (rules R264 to R266).
-/
namespace Sys2Proof.Machine

/-- The `Cycle` event (rules R120 to R123, R126): only a running engine fetches, decodes and executes. -/
def State.cycle (s : State) : Result :=
  match s.status with
  | .running =>
    match s.fetch with
    | .error reason => s.halt reason
    | .ok w =>
      match decodeWord w with
      | .error _ => s.halt (.unknownOpcode w)
      | .ok i => exec i s
  | .waitingForKey => .next s
  | .halted _ => .next s

/-- One timer's decrement, never below 0 (rule R260). -/
def countDown (b : Byte) : Byte := if b.toNat > 0 then b - 1#8 else b

/-- The `Tick` event (rule R260): in every `STATUS`, both timers, nothing else. -/
def State.tick (s : State) : State := { s with dt := countDown s.dt, st := countDown s.st }

/-- The `KeyPress(k)` event (rule R225): completes a waiting `LD Vx,K`, else is discarded. -/
def State.keyPress (s : State) (k : Key) : State :=
  match s.status with
  | .waitingForKey =>
    { s.writeV s.waitX (k.setWidth 8) with pc := BitVec.ofNat 12 (s.pc.toNat + 2), status := .running }
  | .running => s
  | .halted _ => s

/-- The `KeysUpdate(snapshot)` event (rule R129): all 16 keys at once, nothing else. -/
def State.keysUpdate (s : State) (snapshot : BitVec 16) : State := { s with keys := snapshot }

/-! ### The sequencer -/

/-- The sequencer issues a request only while it runs; paused, it issues none and nothing changes (rules R52, R266). -/
def State.issue (s : State) (r : Request) : Result :=
  if s.run then
    match r with
    | .cycle => s.cycle
    | .tick => .next s.tick
  else .next s

/-- `nc` cycle requests and `nt` tick requests, interleaved as `order` says while both kinds last, then the cycles, then
the ticks: rule R265's two loops, whose interleaving is free. -/
def interleave (order : List Request) (nc nt : Nat) : List Request :=
  match order with
  | [] => List.replicate nc .cycle ++ List.replicate nt .tick
  | .cycle :: rest =>
    match nc with
    | 0 => interleave rest 0 nt
    | nc' + 1 => .cycle :: interleave rest nc' nt
  | .tick :: rest =>
    match nt with
    | 0 => interleave rest nc 0
    | nt' + 1 => .tick :: interleave rest nc nt'

/-- How many requests a budget pays for: the turns of the loop `while budget >= 1: budget <- budget - 1` (rule R265). -/
def requestsIn (budget : Rat) : Nat := budget.floor.toNat

/-- A budget after `dt` seconds at `rate` a second (rule R265). Elapsed time is never negative: a negative `dt` counts as
none; log 8. -/
def grownBudget (budget dt rate : Rat) : Rat := budget + (if 0 ≤ dt then dt else 0) * rate

/-- One sequencer iteration (rule R265): the budgets grow, the whole requests they pay for are issued next, the fractions
stay. Paused, the budgets do not grow and nothing is issued (rule R266). -/
def State.elapse (s : State) (dt : Rat) (order : List Request) : State :=
  if s.run then
    { s with
      cycleBudget := grownBudget s.cycleBudget dt s.config.ips - requestsIn (grownBudget s.cycleBudget dt s.config.ips)
      tickBudget := grownBudget s.tickBudget dt tickHz - requestsIn (grownBudget s.tickBudget dt tickHz)
      pending :=
        (interleave order (requestsIn (grownBudget s.cycleBudget dt s.config.ips))
          (requestsIn (grownBudget s.tickBudget dt tickHz))).map .request ++ s.pending }
  else s

/-- What one input does when it arrives, between two events (rules R14, R249). -/
def State.accept (s : State) (input : Input) : Result :=
  match input with
  | .request r => s.issue r
  | .keyPress k => .next (s.keyPress k)
  | .keysUpdate snapshot => .next (s.keysUpdate snapshot)
  | .reset => .next s.resetEvent
  | .setRun on => .next { s with run := on }
  | .elapse dt order => .next (s.elapse dt order)

/-- The next event: the first pending input, or, when none is pending, a cycle request; log 2. -/
def State.nextEvent (s : State) : Result :=
  match s.pending with
  | [] => s.issue .cycle
  | input :: rest => { s with pending := rest }.accept input

end Sys2Proof.Machine
end

