-- ==== Sys2Proof/Machine/Outputs.lean ====
section
/-!
DEFINITION. The output ports, functions of the state at an instruction boundary (rules R40, R49 to R51). The `fb` port is
the field `State.fb` itself (rule R49).
-/
namespace Sys2Proof.Machine

/-- `sound_on`: 1 exactly when `ST > 0` (rule R50). -/
def State.soundOn (s : State) : Bool := decide (s.st.toNat > 0)

/-- `status`: 0 `Running`, 1 `WaitingForKey`, 2 `Halted` (rule R51). -/
def State.statusCode (s : State) : BitVec 2 :=
  match s.status with
  | .running => 0#2
  | .waitingForKey => 1#2
  | .halted _ => 2#2

/-- The code of a halt reason (rule R240). -/
def haltReasonCode (r : HaltReason) : BitVec 3 :=
  match r with
  | .unknownOpcode _ => 1#3
  | .outOfBounds _ => 2#3
  | .stackOverflow => 3#3
  | .stackUnderflow => 4#3
  | .misalignedPC _ => 5#3

/-- The value recorded with a halt reason (rule R240). -/
def haltReasonInfo (r : HaltReason) : BitVec 16 :=
  match r with
  | .unknownOpcode w => w
  | .outOfBounds a => BitVec.ofNat 16 a
  | .stackOverflow => 0#16
  | .stackUnderflow => 0#16
  | .misalignedPC a => a.setWidth 16

/-- `halt_code`: 0 when not halted (rules R51, R240). -/
def State.haltCode (s : State) : BitVec 3 :=
  match s.status with
  | .running => 0#3
  | .waitingForKey => 0#3
  | .halted r => haltReasonCode r

/-- `halt_info`: the halted reason's argument (rules R51, R240); 0 when not halted, which the spec leaves open: DESIGN
CHOICE, unsafe; log 10. -/
def State.haltInfo (s : State) : BitVec 16 :=
  match s.status with
  | .running => 0#16
  | .waitingForKey => 0#16
  | .halted r => haltReasonInfo r

end Sys2Proof.Machine
end

