-- ==== Sys2Proof/Machine/Step.lean ====
section
/-!
DEFINITION. One step of the machine, and the host's placing of one instruction.
-/
namespace Sys2Proof.Machine

/-- One atomic event (rules R14, R249). -/
def step (s : State) : Host.Outcome State Fault Refusal := s.nextEvent

/-- `s` with the instruction of a table row's word placed at `PC`, high byte first, and the next event the cycle that
fetches it: nothing pending, the sequencer started, the engine running. It stands for the loader; log 12. -/
def State.withFetchWord (s : State) (nbits w : Nat) : State :=
  { s.loadBytes s.pc.toNat (bytesOfWord (BitVec.ofNat 16 (w % 2 ^ nbits))) with
    status := .running
    run := true
    pending := [] }

end Sys2Proof.Machine
end

