-- ==== Sys2Proof/Safety.lean ====
section
/-!
DEFINITION. The terms claims are stated in: the invariants of rule R33, a safe step, the word at `PC`, the new `PC` of
each form (rule R125), the halt each form raises (rule R240), and the pixel-by-pixel reading of a sprite (rule R212).
-/
namespace Sys2Proof.Machine

/-- An even address: the only kind `PC` may hold (rule R33). -/
def evenAddr (a : Addr) : Prop := a.toNat % 2 = 0

/-- Rule R33 at an instruction boundary, with the model's canonical memory: `PC` and every stack slot are even (so at
most 4094), and an engine that waits for a key can complete (rule R224). The other bounds of rule R33 (register
numbers, `I`, `SP`, the timers) are the types of `State`. -/
structure State.Inv (s : State) : Prop where
  pcEven : evenAddr s.pc
  stackEven : ∀ j : Fin 16, evenAddr s.stack[j]
  waitCanComplete : s.status = .waitingForKey → s.pc.toNat + 2 ≤ pcMax
  memCanonical : s.mem.wf = true

/-- The sequencer's budgets between iterations, under a well-formed configuration: the whole requests have been issued, a
fraction is left (rule R265). -/
structure State.BudgetInv (s : State) : Prop where
  configWf : s.config.wf = true
  cycleFraction : 0 ≤ s.cycleBudget ∧ s.cycleBudget < 1
  tickFraction : 0 ≤ s.tickBudget ∧ s.tickBudget < 1

/-- The engine has halted: it executes nothing until reset (rule R30). -/
def State.isHalted (s : State) : Prop := ∃ r, s.status = .halted r

/-- A step is safe when it does not take the engine into `Halted` (rule R130: a halt is never a successful end). -/
def safeStep (s : State) : Prop := ∃ t, step s = .next t ∧ (t.isHalted → s.isHalted)

/-- The big-endian word at `PC` and `PC + 1` (rule R64). -/
def State.wordAtPc (s : State) : Word := wordOfBytes (s.readByte s.pc.toNat) (s.readByte (s.pc.toNat + 1))

/-- The next event is a cycle that the engine executes (rules R42, R120): nothing else is pending, the sequencer runs, the
engine is running, and `PC` is one a fetch can be made from. -/
structure State.readyToExecute (s : State) : Prop where
  nonePending : s.pending = []
  sequencerRuns : s.run = true
  engineRuns : s.status = .running
  pcInRange : s.pc.toNat ≤ pcMax

/-- The next event is a cycle request (rule R42): one that is pending first, or the unprompted one; log 2. -/
def State.cycleIsNext (s : State) : Prop := s.pending = [] ∨ ∃ rest, s.pending = .request .cycle :: rest

/-- The condition of a skip form, `none` for every other form (rules R146 to R149, R220 to R222). -/
def skipCondition (i : Instr) (s : State) : Option Bool :=
  match i with
  | .seVxKk x kk => some (decide ((s.readV x).toNat = kk.toNat))
  | .sneVxKk x kk => some (decide ((s.readV x).toNat ≠ kk.toNat))
  | .seVxVy x y => some (decide ((s.readV x).toNat = (s.readV y).toNat))
  | .sneVxVy x y => some (decide ((s.readV x).toNat ≠ (s.readV y).toNat))
  | .skpVx x => some (s.keys.getLsbD ((s.readV x).toNat % 16))
  | .sknpVx x => some (!s.keys.getLsbD ((s.readV x).toNat % 16))
  | .cls | .ret | .jpAddr _ | .callAddr _ | .ldVxKk _ _ | .addVxKk _ _ | .ldVxVy _ _ | .orVxVy _ _ | .andVxVy _ _
  | .xorVxVy _ _ | .addVxVy _ _ | .subVxVy _ _ | .shrVxVy _ _ | .subnVxVy _ _ | .shlVxVy _ _ | .ldIAddr _
  | .jpV0Addr _ | .rndVxKk _ _ | .drwVxVyN _ _ _ | .ldVxDt _ | .ldVxK _ | .ldDtVx _ | .ldStVx _ | .addIVx _
  | .ldFVx _ | .ldBVx _ | .ldMemVx _ | .ldVxMem _ => none

/-- The halt of `Advance(k)` at `PC`, if it raises one (rules R124, R244). -/
def advanceHalt (s : State) (k : Nat) : Option HaltReason :=
  if s.pc.toNat + k > pcMax then some (.outOfBounds (s.pc.toNat + k)) else none

/-- The halt of a transfer to `target`, if it raises one (rule R141). -/
def targetHalt (target : Nat) : Option HaltReason :=
  if target % 2 = 1 then some (.misalignedPC (BitVec.ofNat 12 target)) else none

/-- The halt of a form that accesses `n` bytes at `I` and then advances, if it raises one (rules R61, R244). -/
def dataHalt (s : State) (n : Nat) : Option HaltReason :=
  if 0 < n ∧ s.i.toNat + n > memSize then some (.outOfBounds memSize) else advanceHalt s 2

/-- The halt a form raises in a state, `none` where it completes or begins a wait: the column "when" of rule R240's table,
in the priority of rule R248. -/
def raisedHalt (i : Instr) (s : State) : Option HaltReason :=
  match i with
  | .jpAddr nnn => targetHalt nnn.toNat
  | .jpV0Addr nnn => targetHalt ((nnn.toNat + (s.readV 0).toNat) % 4096)
  | .callAddr nnn =>
    if s.sp.val = 16 then some .stackOverflow
    else if s.pc.toNat + 2 > pcMax then some (.outOfBounds (s.pc.toNat + 2))
    else targetHalt nnn.toNat
  | .ret => if s.sp.val = 0 then some .stackUnderflow else none
  | .seVxKk x kk => advanceHalt s (if (s.readV x).toNat = kk.toNat then 4 else 2)
  | .sneVxKk x kk => advanceHalt s (if (s.readV x).toNat ≠ kk.toNat then 4 else 2)
  | .seVxVy x y => advanceHalt s (if (s.readV x).toNat = (s.readV y).toNat then 4 else 2)
  | .sneVxVy x y => advanceHalt s (if (s.readV x).toNat ≠ (s.readV y).toNat then 4 else 2)
  | .skpVx x => advanceHalt s (if s.keys.getLsbD ((s.readV x).toNat % 16) then 4 else 2)
  | .sknpVx x => advanceHalt s (if s.keys.getLsbD ((s.readV x).toNat % 16) then 2 else 4)
  | .drwVxVyN _ _ n => dataHalt s n.val
  | .ldBVx _ => dataHalt s 3
  | .ldMemVx x => dataHalt s (x.val + 1)
  | .ldVxMem x => dataHalt s (x.val + 1)
  | .cls | .ldVxKk _ _ | .addVxKk _ _ | .ldVxVy _ _ | .orVxVy _ _ | .andVxVy _ _ | .xorVxVy _ _ | .addVxVy _ _
  | .subVxVy _ _ | .shrVxVy _ _ | .subnVxVy _ _ | .shlVxVy _ _ | .ldIAddr _ | .rndVxKk _ _ | .ldVxDt _ | .ldVxK _
  | .ldDtVx _ | .ldStVx _ | .addIVx _ | .ldFVx _ => advanceHalt s 2

/-- The new `PC` of each form when it completes (rule R125), over the integers. -/
def newPc (i : Instr) (s : State) : Nat :=
  match i with
  | .jpAddr nnn => nnn.toNat
  | .callAddr nnn => nnn.toNat
  | .ret => if h : 0 < s.sp.val then (s.stack[s.sp.val - 1]'(by omega)).toNat else s.pc.toNat
  | .jpV0Addr nnn => (nnn.toNat + (s.readV 0).toNat) % 4096
  | .seVxKk x kk => s.pc.toNat + if (s.readV x).toNat = kk.toNat then 4 else 2
  | .sneVxKk x kk => s.pc.toNat + if (s.readV x).toNat ≠ kk.toNat then 4 else 2
  | .seVxVy x y => s.pc.toNat + if (s.readV x).toNat = (s.readV y).toNat then 4 else 2
  | .sneVxVy x y => s.pc.toNat + if (s.readV x).toNat ≠ (s.readV y).toNat then 4 else 2
  | .skpVx x => s.pc.toNat + if s.keys.getLsbD ((s.readV x).toNat % 16) then 4 else 2
  | .sknpVx x => s.pc.toNat + if s.keys.getLsbD ((s.readV x).toNat % 16) then 2 else 4
  | .ldVxK _ => s.pc.toNat
  | .cls | .ldVxKk _ _ | .addVxKk _ _ | .ldVxVy _ _ | .orVxVy _ _ | .andVxVy _ _ | .xorVxVy _ _ | .addVxVy _ _
  | .subVxVy _ _ | .shrVxVy _ _ | .subnVxVy _ _ | .shlVxVy _ _ | .ldIAddr _ | .rndVxKk _ _ | .drwVxVyN _ _ _
  | .ldVxDt _ | .ldDtVx _ | .ldStVx _ | .addIVx _ | .ldFVx _ | .ldBVx _ | .ldMemVx _ | .ldVxMem _ => s.pc.toNat + 2

/-- Whether an `n`-row sprite at `I`, drawn at `(Vx mod 64, Vy mod 32)`, has a bit 1 at row `r` and column `c` of the
framebuffer (rule R212): read from the pixel's side, with no loop. -/
def State.spriteBit (s : State) (vx vy : Byte) (n : Nat) (r : Fin 32) (c : Fin 64) : Bool :=
  decide ((r.val + 32 - vy.toNat % 32) % 32 < n) && decide ((c.val + 64 - vx.toNat % 64) % 64 < 8) &&
    (s.readByte (s.i.toNat + (r.val + 32 - vy.toNat % 32) % 32)).getLsbD (7 - (c.val + 64 - vx.toNat % 64) % 64)

end Sys2Proof.Machine
end

