-- ==== Sys2Proof/Certificates/Slice0/Obligations.lean ====
section
/-!
DEFINITION. The statements about the model, each a proposition; none is proved here. "D<n>" is an entry of the spec's own
92_eei_decisions.md: where a clause rests on one, it is the spec's marked choice and no rule of its source. An
equation `t = { s with … }` also says that the model's own fields `rndDraws` and `pending`, and `WAIT_X` outside a wait, are
kept, which are the model's choices (logs 2, 3, 4). -/
open Sys2Proof Sys2Proof.Machine

/-! ### Encoding -/

/-- Decoding the word of any instruction gives it back, every operand included. Rests on the opcode numbers of
30_encoding.md section 3, which the spec supplies itself (D19). -/
def Obligations.DecodeOfEncodeIsTheInstruction : Prop :=
  ∀ i : Instr, decodeWord (encode i) = .ok i

/-- 30_encoding.md section 3: every word that decodes is the word of the instruction it decodes to: no bit of a word is
ignored (the unused `y` of a shift is carried, rule R99). -/
def Obligations.EncodeOfDecodeIsTheWord : Prop :=
  ∀ (w : Word) (i : Instr), decodeWord w = .ok i → encode i = w

/-- 30_encoding.md section 3 (rule R94): decode is total; it accepts a word exactly when the word matches a row of the
map of 34 rows, and gives the form of that row; no word matches two rows; a word that matches none is `UnknownOpcode`
carrying that word. The numbers in the map are the spec's own (D19). -/
def Obligations.DecodeAcceptsExactlyTheMap : Prop :=
  opcodeRows.length = 34 ∧
  (∀ w : Word, (∃ i, decodeWord w = .ok i) ↔ ∃ row ∈ opcodeRows, w &&& row.1 = row.2) ∧
  (∀ (w : Word) (i : Instr), decodeWord w = .ok i → opcodeRow i ∈ opcodeRows ∧ w &&& (opcodeRow i).1 = (opcodeRow i).2) ∧
  (∀ w : Word, ∀ a ∈ opcodeRows, ∀ b ∈ opcodeRows, w &&& a.1 = a.2 → w &&& b.1 = b.2 → a = b) ∧
  (∀ w : Word, (∀ row ∈ opcodeRows, w &&& row.1 ≠ row.2) → decodeWord w = .error (.unknownOpcode w))

/-- 20_memory.md section 3: instructions are read from bytes high byte first (rules R64, R65), and the bytes after an
instruction are left. -/
def Obligations.DecodeBytesReadsBigEndian : Prop :=
  ∀ (i : Instr) (hi lo : Byte) (rest : List Byte),
    hi.toNat * 256 + lo.toNat = (encode i).toNat → decodeBytes (hi :: lo :: rest) = .ok (i, rest)

/-- A few words of 95_test_vectors.md section 2.1 (and the source's own three) decode to the instruction they stand for. -/
def Obligations.SampleWordsDecode : Prop :=
  decodeWord 0x6005#16 = .ok (.ldVxKk 0 0x05#8) ∧ decodeWord 0x6105#16 = .ok (.ldVxKk 1 0x05#8) ∧
  decodeWord 0x5010#16 = .ok (.seVxVy 0 1) ∧ decodeWord 0x2ABC#16 = .ok (.callAddr 0xABC#12) ∧
  decodeWord 0xDAB5#16 = .ok (.drwVxVyN 10 11 5) ∧ decodeWord 0x8ABE#16 = .ok (.shlVxVy 10 11) ∧
  decodeWord 0xFA65#16 = .ok (.ldVxMem 10) ∧ decodeWord 0xEAA1#16 = .ok (.sknpVx 10) ∧
  decodeWord 0x0000#16 = .error (.unknownOpcode 0x0000#16)

/-! ### The cycle -/

/-- 40_cycle.md section 1 (rules R120, R122, R123): when the word at `PC` decodes to `i`, the step is the execution of
`i` in that state: an unprompted cycle (the model's choice, log 2) in the state itself, a pending cycle request in the
state without the request. -/
def Obligations.StepRunsTheDecodedInstruction : Prop :=
  ∀ (s : State) (i : Instr), s.readyToExecute → decodeWord s.wordAtPc = .ok i →
    step s = exec i s ∧
    ∀ rest : List Input, step { s with pending := .request .cycle :: rest } = exec i { s with pending := rest }

/-- 60_exceptions.md section 1 and 40_cycle.md section 1 (rules R243, R122, R241): a word that decodes to no
instruction, fetched from `PC` and `PC + 1`, halts the engine with `UnknownOpcode` of that word; `PC` and everything
else are unchanged; and the word `0x0000` of cleared RAM is one. So for a cycle request that is pending first, and for
the unprompted cycle (the model's choice, log 2). What a byte of RAM reads as that nobody placed is free (log 1), so
nothing is said of running into such bytes beyond this. -/
def Obligations.IllegalWordHaltsCarryingIt : Prop :=
  (∀ s : State, s.readyToExecute → (∀ i, decodeWord s.wordAtPc ≠ .ok i) →
    step s = .next { s with status := .halted (.unknownOpcode s.wordAtPc) } ∧
    ∀ rest : List Input, step { s with pending := .request .cycle :: rest } =
      .next { s with pending := rest, status := .halted (.unknownOpcode s.wordAtPc) }) ∧
  (∀ s : State, s.readyToExecute → s.readByte s.pc.toNat = 0#8 → s.readByte (s.pc.toNat + 1) = 0#8 →
    step s = .next { s with status := .halted (.unknownOpcode 0x0000#16) } ∧
    ∀ rest : List Input, step { s with pending := .request .cycle :: rest } =
      .next { s with pending := rest, status := .halted (.unknownOpcode 0x0000#16) })

/-- 60_exceptions.md section 1 (rules R240, R241): every step of every state has a next state: no behaviour of the
machine is refused and none is a fault of the interface, since every error is a halt, which the model takes as a next
state (log 9). -/
def Obligations.EveryStepHasANextState : Prop :=
  ∀ s : State, ∃ t, step s = .next t

/-- 40_cycle.md section 1 (rule R126): a cycle request to an engine that waits or has halted changes nothing. For
`Halted` and for the details of the wait this is the spec's choice (D16, D17); that an empty list of inputs means a
cycle request is the model's (log 2). -/
def Obligations.CycleChangesNothingUnlessRunning : Prop :=
  ∀ s : State, s.status ≠ .running →
    (s.pending = [] → step s = .next s) ∧
    ∀ rest : List Input, step { s with pending := .request .cycle :: rest } = .next { s with pending := rest }

/-- 60_exceptions.md section 1 (rules R241, R242): an instruction that halts changes `STATUS` and nothing else, whatever
the instruction. The extension to every halt is the spec's choice (D6). -/
def Obligations.HaltingInstructionHasNoOtherEffect : Prop :=
  ∀ (i : Instr) (s t : State) (r : HaltReason), s.status = .running → exec i s = .next t → t.status = .halted r →
    t = { s with status := .halted r }

/-- 40_cycle.md section 2 (rule R125): the new `PC` of each form that completes. -/
def Obligations.NewPcOfEveryForm : Prop :=
  ∀ (i : Instr) (s t : State), s.status = .running → exec i s = .next t → ¬ t.isHalted → t.pc.toNat = newPc i s

/-- 40_cycle.md section 2 (rule R124, the spec's choice D4): at 4094 every form that is neither a transfer nor a skip
halts with `OutOfBounds(4096)`, whatever its operands; a skip halts there with 4098 if taken and 4096 if not; and at
4092 a taken skip halts with 4096. -/
def Obligations.LastSlotHaltsAllButTransfers : Prop :=
  (∀ (i : Instr) (s : State), s.pc = 0xFFE#12 → skipCondition i s = none → i ≠ .ret → (∀ a, i ≠ .jpAddr a) →
    (∀ a, i ≠ .callAddr a) → (∀ a, i ≠ .jpV0Addr a) →
    exec i s = .next { s with status := .halted (.outOfBounds 4096) }) ∧
  (∀ (i : Instr) (s : State) (b : Bool), s.pc = 0xFFE#12 → skipCondition i s = some b →
    exec i s = .next { s with status := .halted (.outOfBounds (if b then 4098 else 4096)) }) ∧
  (∀ (i : Instr) (s : State), s.pc = 0xFFC#12 → skipCondition i s = some true →
    exec i s = .next { s with status := .halted (.outOfBounds 4096) })

/-! ### Control transfer -/

/-- 41_control_transfer.md section 2 (rules R142, R145): a jump to an even target writes `PC` and nothing else; the
target of `JP V0,addr` is `(nnn + V0) mod 4096`. An odd target halts with that target and nothing else (rule R141, the
spec's choice D5). -/
def Obligations.JumpsGoToEvenTargetsOnly : Prop :=
  (∀ (nnn : Addr) (s : State),
    (nnn.toNat % 2 = 0 → exec (.jpAddr nnn) s = .next { s with pc := nnn }) ∧
    (nnn.toNat % 2 = 1 → exec (.jpAddr nnn) s = .next { s with status := .halted (.misalignedPC nnn) })) ∧
  (∀ (nnn t : Addr) (s : State), t.toNat = (nnn.toNat + (s.readV 0).toNat) % 4096 →
    (t.toNat % 2 = 0 → exec (.jpV0Addr nnn) s = .next { s with pc := t }) ∧
    (t.toNat % 2 = 1 → exec (.jpV0Addr nnn) s = .next { s with status := .halted (.misalignedPC t) }))

/-- 40_cycle.md section 4 (rule R130): a jump to its own address leaves every piece of state unchanged. -/
def Obligations.JumpToSelfIsIdle : Prop :=
  ∀ s : State, s.pc.toNat % 2 = 0 → exec (.jpAddr s.pc) s = .next s

/-- 41_control_transfer.md section 2 (rule R143): `CALL` with room on the stack, a return address in memory and an even
target pushes `PC + 2` (the spec's choice D3), moves `SP` by one and goes to the target; the other slots, the registers
and everything else are unchanged. -/
def Obligations.CallPushesTheReturnAddress : Prop :=
  ∀ (nnn : Addr) (s : State) (h : s.sp.val < 16), s.pc.toNat + 2 ≤ pcMax → nnn.toNat % 2 = 0 →
    ∃ t, exec (.callAddr nnn) s = .next t ∧ t.pc = nnn ∧ t.sp.val = s.sp.val + 1 ∧
      t.stack[s.sp.val].toNat = s.pc.toNat + 2 ∧ (∀ j : Fin 16, j.val ≠ s.sp.val → t.stack[j] = s.stack[j]) ∧
      t = { s with stack := t.stack, sp := t.sp, pc := t.pc } ∧ ∀ a, t.readByte a = s.readByte a

/-- 60_exceptions.md section 2 (rule R248, the spec's choice D7): when several errors of a `CALL` apply, `StackOverflow`
is recorded before `OutOfBounds` and that before `MisalignedPC`; nothing else changes. -/
def Obligations.CallErrorsInPriorityOrder : Prop :=
  ∀ (nnn : Addr) (s : State),
    (s.sp.val = 16 → exec (.callAddr nnn) s = .next { s with status := .halted .stackOverflow }) ∧
    (s.sp.val < 16 → s.pc.toNat + 2 > pcMax →
      exec (.callAddr nnn) s = .next { s with status := .halted (.outOfBounds (s.pc.toNat + 2)) }) ∧
    (s.sp.val < 16 → s.pc.toNat + 2 ≤ pcMax → nnn.toNat % 2 = 1 →
      exec (.callAddr nnn) s = .next { s with status := .halted (.misalignedPC nnn) })

/-- Rules R245 and R246: `StackOverflow` is raised by `CALL` exactly when `SP = 16`, `StackUnderflow` by `RET` exactly
when `SP = 0`, and by no other instruction. -/
def Obligations.StackErrorsExactlyAtTheEnds : Prop :=
  (∀ (i : Instr) (s t : State), s.status = .running → exec i s = .next t →
    (t.status = .halted .stackOverflow ↔ (∃ nnn, i = .callAddr nnn) ∧ s.sp.val = 16)) ∧
  (∀ (i : Instr) (s t : State), s.status = .running → exec i s = .next t →
    (t.status = .halted .stackUnderflow ↔ i = .ret ∧ s.sp.val = 0))

/-- 41_control_transfer.md section 2 (rule R144; that `RET` exists and does not advance is the spec's choice D2, D3):
`RET` with a return address on the stack goes to it and moves `SP` back by one; every slot keeps its value and
everything else is unchanged. -/
def Obligations.ReturnGoesToThePoppedAddress : Prop :=
  ∀ (s : State) (h : 0 < s.sp.val),
    ∃ t, exec .ret s = .next t ∧ t.pc = s.stack[s.sp.val - 1] ∧ t.sp.val + 1 = s.sp.val ∧
      t = { s with sp := t.sp, pc := t.pc } ∧ ∀ a, t.readByte a = s.readByte a

/-- 41_control_transfer.md section 2, the source's scenario (rules R143, R144): `CALL` and then `RET` restores `PC` to
the instruction after the `CALL`, and all else but the stack slots; that the return address is `PC + 2` is the spec's
choice (D3). -/
def Obligations.CallThenReturnResumes : Prop :=
  ∀ (nnn : Addr) (s : State), s.sp.val < 16 → s.pc.toNat + 2 ≤ pcMax → nnn.toNat % 2 = 0 →
    ∃ t u, exec (.callAddr nnn) s = .next t ∧ exec .ret t = .next u ∧ u.pc.toNat = s.pc.toNat + 2 ∧
      u = { s with pc := u.pc, stack := t.stack } ∧ ∀ a, u.readByte a = s.readByte a

/-- 41_control_transfer.md section 3 and 45_keypad_timers.md section 1 (rules R146 to R149, R221, R222): each of the six
skip forms adds 4 to `PC` when its condition holds and 2 when not, without looking at the word skipped, and changes
nothing else; when the sum is above 4094 it halts (rule R124, D4). The low nibble of `Vx` names the key (D15). -/
def Obligations.SkipsMoveByFourOrTwo : Prop :=
  ∀ (i : Instr) (s : State) (b : Bool), skipCondition i s = some b →
    (s.pc.toNat + (if b then 4 else 2) ≤ pcMax →
      ∃ t, exec i s = .next t ∧ t.pc.toNat = s.pc.toNat + (if b then 4 else 2) ∧ t = { s with pc := t.pc } ∧
        ∀ a, t.readByte a = s.readByte a) ∧
    (s.pc.toNat + (if b then 4 else 2) > pcMax →
      exec i s = .next { s with status := .halted (.outOfBounds (s.pc.toNat + (if b then 4 else 2))) })

/-! ### Loads, arithmetic, logic, shifts, random -/

/-- 42_load_alu.md sections 2 and 3 (rules R162 to R167): each of the six forms without a flag writes `V[x]` and moves
to the next instruction; every other register (so `VF` too, unless it is `Vx`; that case D23), every other piece of
state and every byte of memory is unchanged. The addition wraps mod 256 and its carry is lost. -/
def Obligations.LoadsAndLogicWriteVxAlone : Prop :=
  ∀ (x y : Reg) (kk : Byte) (s : State), s.pc.toNat + 2 ≤ pcMax →
    ∀ p ∈ [(Instr.ldVxKk x kk, kk.toNat), (Instr.addVxKk x kk, ((s.readV x).toNat + kk.toNat) % 256),
           (Instr.ldVxVy x y, (s.readV y).toNat), (Instr.orVxVy x y, (s.readV x).toNat ||| (s.readV y).toNat),
           (Instr.andVxVy x y, (s.readV x).toNat &&& (s.readV y).toNat),
           (Instr.xorVxVy x y, (s.readV x).toNat ^^^ (s.readV y).toNat)],
      ∃ t, exec p.1 s = .next t ∧ (t.readV x).toNat = p.2 ∧ (∀ z, z ≠ x → t.readV z = s.readV z) ∧
        t.pc.toNat = s.pc.toNat + 2 ∧ t = { s with v := t.v, pc := t.pc } ∧ ∀ a, t.readByte a = s.readByte a

/-- 42_load_alu.md section 4 (rules R161, R168): `ADD Vx,Vy`: `Vx` becomes the sum mod 256 and `VF` the carry; when `x`
is 15 the carry is what `VF` holds (conflict C3); nothing else but `PC` changes. -/
def Obligations.AddWritesSumThenCarry : Prop :=
  ∀ (x y : Reg) (s : State), s.pc.toNat + 2 ≤ pcMax →
    ∃ t, exec (.addVxVy x y) s = .next t ∧
      (t.readV 15).toNat = (if (s.readV x).toNat + (s.readV y).toNat > 255 then 1 else 0) ∧
      (x ≠ 15 → (t.readV x).toNat = ((s.readV x).toNat + (s.readV y).toNat) % 256) ∧
      (∀ z, z ≠ x → z ≠ 15 → t.readV z = s.readV z) ∧
      t.pc.toNat = s.pc.toNat + 2 ∧ t = { s with v := t.v, pc := t.pc } ∧ ∀ a, t.readByte a = s.readByte a

/-- 42_load_alu.md section 4 (rules R161, R169, R172): `SUB` and `SUBN`: `Vx` becomes the difference mod 256 and `VF` is
1 exactly when there is no borrow; `SUBN` exchanges the operands, not the destination; when `x` is 15 the flag stays. -/
def Obligations.SubtractionsWriteDifferenceThenNotBorrow : Prop :=
  ∀ (x y : Reg) (s : State), s.pc.toNat + 2 ≤ pcMax →
    ∀ p ∈ [(Instr.subVxVy x y, (s.readV x).toNat, (s.readV y).toNat),
           (Instr.subnVxVy x y, (s.readV y).toNat, (s.readV x).toNat)],
      ∃ t, exec p.1 s = .next t ∧
        (t.readV 15).toNat = (if p.2.1 ≥ p.2.2 then 1 else 0) ∧
        (x ≠ 15 → ((t.readV x).toNat : Int) = ((p.2.1 : Int) - (p.2.2 : Int)) % 256) ∧
        (∀ z, z ≠ x → z ≠ 15 → t.readV z = s.readV z) ∧
        t.pc.toNat = s.pc.toNat + 2 ∧ t = { s with v := t.v, pc := t.pc } ∧ ∀ a, t.readByte a = s.readByte a

/-- 42_load_alu.md section 5 (rules R161, R170, R171, R173): `SHR` and `SHL` shift `Vy` under `QUIRK_SHIFT_USES_VY` and
`Vx` otherwise (the quirk's meaning is D13), for both values of the flag; the result goes to `Vx` and the bit shifted
out to `VF`, which is what stays when `x` is 15. -/
def Obligations.ShiftsWriteResultThenBitOut : Prop :=
  ∀ (x y : Reg) (s : State) (b : Nat), s.pc.toNat + 2 ≤ pcMax →
    b = (if s.config.quirkShiftUsesVy then (s.readV y).toNat else (s.readV x).toNat) →
    ∀ p ∈ [(Instr.shrVxVy x y, b / 2, b % 2), (Instr.shlVxVy x y, 2 * b % 256, b / 128)],
      ∃ t, exec p.1 s = .next t ∧ (t.readV 15).toNat = p.2.2 ∧ (x ≠ 15 → (t.readV x).toNat = p.2.1) ∧
        (∀ z, z ≠ x → z ≠ 15 → t.readV z = s.readV z) ∧
        t.pc.toNat = s.pc.toNat + 2 ∧ t = { s with v := t.v, pc := t.pc } ∧ ∀ a, t.readByte a = s.readByte a

/-- 42_load_alu.md section 6 (rule R174): `RND` writes a free byte masked by `kk`, so no bit outside `kk`; the byte is
the one of this draw and the next `RND` draws another. Nothing is said of the byte's value (log 3, D25). -/
def Obligations.RandomWritesAMaskedFreeByte : Prop :=
  ∀ (x : Reg) (kk : Byte) (s : State), s.pc.toNat + 2 ≤ pcMax →
    ∃ t, exec (.rndVxKk x kk) s = .next t ∧ t.readV x = Config.randomByte s.rndDraws &&& kk ∧
      t.readV x &&& ~~~kk = 0#8 ∧ (∀ z, z ≠ x → t.readV z = s.readV z) ∧ t.rndDraws = s.rndDraws + 1 ∧
      t.pc.toNat = s.pc.toNat + 2 ∧ t = { s with v := t.v, pc := t.pc, rndDraws := t.rndDraws } ∧
      ∀ a, t.readByte a = s.readByte a

/-! ### The address register and memory -/

/-- 43_index_memory.md section 2 (rules R191 to R193): the three forms that set `I` write it mod 4096 and move to the
next instruction; no flag, no register, no byte of memory. The glyph layout is the spec's choice (D10). -/
def Obligations.AddressFormsWriteIAlone : Prop :=
  ∀ (x : Reg) (nnn : Addr) (s : State), s.pc.toNat + 2 ≤ pcMax →
    ∀ p ∈ [(Instr.ldIAddr nnn, nnn.toNat), (Instr.addIVx x, (s.i.toNat + (s.readV x).toNat) % 4096),
           (Instr.ldFVx x, (s.config.fontBase.toNat + 5 * ((s.readV x).toNat % 16)) % 4096)],
      ∃ t, exec p.1 s = .next t ∧ t.i.toNat = p.2 ∧ t.pc.toNat = s.pc.toNat + 2 ∧
        t = { s with i := t.i, pc := t.pc } ∧ ∀ a, t.readByte a = s.readByte a

/-- Rule R128: the three digits of a byte are 0 to 2, 0 to 9 and 0 to 9, and `100*hundreds + 10*tens + ones = v`. -/
def Obligations.DecimalDigitsRecompose : Prop :=
  ∀ b : Byte, ∃ h t o : Byte, decimalDigits b = [h, t, o] ∧ h.toNat ≤ 2 ∧ t.toNat ≤ 9 ∧ o.toNat ≤ 9 ∧
    100 * h.toNat + 10 * t.toNat + o.toNat = b.toNat

/-- 43_index_memory.md section 3 (rule R194): `LD B,Vx` with `I + 2` in memory stores hundreds, tens and ones at `I`, `I
+ 1`, `I + 2`; every other address reads as before, `I` is not moved under either quirk, and nothing else changes. -/
def Obligations.DecimalStoreWritesThreeDigits : Prop :=
  ∀ (x : Reg) (s : State), s.i.toNat + 2 ≤ 4095 → s.pc.toNat + 2 ≤ pcMax →
    ∃ t, exec (.ldBVx x) s = .next t ∧
      (t.readByte s.i.toNat).toNat = (s.readV x).toNat / 100 ∧
      (t.readByte (s.i.toNat + 1)).toNat = (s.readV x).toNat / 10 % 10 ∧
      (t.readByte (s.i.toNat + 2)).toNat = (s.readV x).toNat % 10 ∧
      (∀ a, a < s.i.toNat ∨ s.i.toNat + 2 < a → t.readByte a = s.readByte a) ∧
      t.pc.toNat = s.pc.toNat + 2 ∧ t = { s with mem := t.mem, pc := t.pc }

/-- 43_index_memory.md section 3 (rules R195, R197): `LD [I],Vx` inside memory stores `V[j]` at `I + j` for `j` from 0
to `x`; every other address reads as before; `I` moves by `x + 1` mod 4096 exactly under the quirk (D14); no register
and nothing else changes. -/
def Obligations.StoreWritesTheRegistersInOrder : Prop :=
  ∀ (x : Reg) (s : State), s.i.toNat + x.val ≤ 4095 → s.pc.toNat + 2 ≤ pcMax →
    ∃ t, exec (.ldMemVx x) s = .next t ∧
      (∀ j : Reg, j.val ≤ x.val → t.readByte (s.i.toNat + j.val) = s.readV j) ∧
      (∀ a, a < s.i.toNat ∨ s.i.toNat + x.val < a → t.readByte a = s.readByte a) ∧
      t.i.toNat = (if s.config.quirkLoadStoreIncI then (s.i.toNat + x.val + 1) % 4096 else s.i.toNat) ∧
      t.pc.toNat = s.pc.toNat + 2 ∧ t = { s with mem := t.mem, i := t.i, pc := t.pc }

/-- 43_index_memory.md section 3 (rules R196, R197): `LD Vx,[I]` inside memory loads `V[j]` from `I + j` for `j` from 0
to `x`; the registers above `x`, every byte of memory and everything else are unchanged; `I` moves by `x + 1` mod 4096
exactly under the quirk (D14). -/
def Obligations.LoadReadsTheRegistersInOrder : Prop :=
  ∀ (x : Reg) (s : State), s.i.toNat + x.val ≤ 4095 → s.pc.toNat + 2 ≤ pcMax →
    ∃ t, exec (.ldVxMem x) s = .next t ∧
      (∀ j : Reg, j.val ≤ x.val → t.readV j = s.readByte (s.i.toNat + j.val)) ∧
      (∀ j : Reg, x.val < j.val → t.readV j = s.readV j) ∧ (∀ a, t.readByte a = s.readByte a) ∧
      t.i.toNat = (if s.config.quirkLoadStoreIncI then (s.i.toNat + x.val + 1) % 4096 else s.i.toNat) ∧
      t.pc.toNat = s.pc.toNat + 2 ∧ t = { s with v := t.v, i := t.i, pc := t.pc }

/-- 43_index_memory.md section 3 (rule R198): `LD [I],Vx` and then, with `I` where it was, `LD Vx,[I]` gives `V0..Vx`
the values they had at the store, whatever the registers hold in between. -/
def Obligations.StoreThenLoadRestoresTheRegisters : Prop :=
  ∀ (x : Reg) (s : State) (w : Vector Byte 16), s.i.toNat + x.val ≤ 4095 → s.pc.toNat + 4 ≤ pcMax →
    ∃ t u, exec (.ldMemVx x) s = .next t ∧ exec (.ldVxMem x) { t with i := s.i, v := w } = .next u ∧
      ∀ j : Reg, j.val ≤ x.val → u.readV j = s.readV j

/-- 20_memory.md section 5 (rule R77, the spec's choice D29): after `LD [I],Vx` and after `LD B,Vx` the next fetch reads
what the store left: each of its two bytes is the register or the digit stored there, for every store range, and the
byte as before where the range does not reach it; the byte at the lower address is the high byte (rules R64, R65). -/
def Obligations.StoreIsSeenByTheNextFetch : Prop :=
  ∀ (x : Reg) (s : State), s.pc.toNat + 2 ≤ pcMax →
    (s.i.toNat + x.val ≤ 4095 →
      ∃ (t : State) (w : Word) (hi lo : Byte), exec (.ldMemVx x) s = .next t ∧ t.fetch = .ok w ∧
        w.toNat = hi.toNat * 256 + lo.toNat ∧
        (∀ j : Reg, j.val ≤ x.val → s.i.toNat + j.val = s.pc.toNat + 2 → hi = s.readV j) ∧
        (∀ j : Reg, j.val ≤ x.val → s.i.toNat + j.val = s.pc.toNat + 3 → lo = s.readV j) ∧
        (s.pc.toNat + 2 < s.i.toNat ∨ s.i.toNat + x.val < s.pc.toNat + 2 → hi = s.readByte (s.pc.toNat + 2)) ∧
        (s.pc.toNat + 3 < s.i.toNat ∨ s.i.toNat + x.val < s.pc.toNat + 3 → lo = s.readByte (s.pc.toNat + 3))) ∧
    (s.i.toNat + 2 ≤ 4095 →
      ∃ (t : State) (w : Word) (hi lo : Byte), exec (.ldBVx x) s = .next t ∧ t.fetch = .ok w ∧
        w.toNat = hi.toNat * 256 + lo.toNat ∧
        (∀ p ∈ [(0, (s.readV x).toNat / 100), (1, (s.readV x).toNat / 10 % 10), (2, (s.readV x).toNat % 10)],
          (s.i.toNat + p.1 = s.pc.toNat + 2 → hi.toNat = p.2) ∧ (s.i.toNat + p.1 = s.pc.toNat + 3 → lo.toNat = p.2)) ∧
        (s.pc.toNat + 2 < s.i.toNat ∨ s.i.toNat + 2 < s.pc.toNat + 2 → hi = s.readByte (s.pc.toNat + 2)) ∧
        (s.pc.toNat + 3 < s.i.toNat ∨ s.i.toNat + 2 < s.pc.toNat + 3 → lo = s.readByte (s.pc.toNat + 3)))

/-- 60_exceptions.md section 1 (rules R61, R242, R244; the address reported and the missing partial effect are the
spec's choices D26, D6): a data access with a byte above 4095 halts with `OutOfBounds(4096)` and writes nothing: `DRW`
with `n > 0`, `LD B,Vx`, `LD [I],Vx`, `LD Vx,[I]`. -/
def Obligations.DataAccessPastMemoryHalts : Prop :=
  ∀ (x y : Reg) (n : Fin 16) (s : State),
    ∀ p ∈ [(Instr.drwVxVyN x y n, n.val), (Instr.ldBVx x, 3), (Instr.ldMemVx x, x.val + 1), (Instr.ldVxMem x, x.val + 1)],
      0 < p.2 → s.i.toNat + p.2 > 4096 → exec p.1 s = .next { s with status := .halted (.outOfBounds 4096) }

/-! ### Display -/

/-- 44_display.md (rule R210): `CLS` clears all 2048 pixels and moves to the next instruction; `VF`, every other
register, every byte of memory and everything else is unchanged; at 4094 the framebuffer is not cleared. -/
def Obligations.ClsClearsEveryPixel : Prop :=
  ∀ s : State,
    (s.pc.toNat + 2 ≤ pcMax →
      ∃ t, exec .cls s = .next t ∧ (∀ r c, t.fb.pixel r c = false) ∧ t.pc.toNat = s.pc.toNat + 2 ∧
        t = { s with fb := t.fb, pc := t.pc } ∧ ∀ a, t.readByte a = s.readByte a) ∧
    (s.pc.toNat + 2 > pcMax → exec .cls s = .next { s with status := .halted (.outOfBounds (s.pc.toNat + 2)) })

/-- 44_display.md (rules R211 to R213): `DRW` inverts exactly the pixels where the sprite has a bit 1, wrapping on both
axes, the most significant bit leftmost (D20), and `VF` is 1 exactly when some pixel was 1 and is 0 afterwards; the
coordinates are those before `VF` is written; `n = 0` draws nothing, reads nothing and clears `VF` (D21). No other
register, no byte of memory and nothing else changes. -/
def Obligations.DrawXorsTheSpriteAndFlagsCollision : Prop :=
  ∀ (x y : Reg) (n : Fin 16) (s : State), (n.val = 0 ∨ s.i.toNat + n.val ≤ 4096) → s.pc.toNat + 2 ≤ pcMax →
    ∃ t, exec (.drwVxVyN x y n) s = .next t ∧
      (∀ r c, t.fb.pixel r c = (s.fb.pixel r c ^^ s.spriteBit (s.readV x) (s.readV y) n.val r c)) ∧
      ((∃ r c, s.fb.pixel r c = true ∧ t.fb.pixel r c = false) → t.readV 15 = 1#8) ∧
      ((∀ r c, s.fb.pixel r c = true → t.fb.pixel r c = true) → t.readV 15 = 0#8) ∧
      (∀ z, z ≠ 15 → t.readV z = s.readV z) ∧ t.pc.toNat = s.pc.toNat + 2 ∧
      t = { s with fb := t.fb, v := t.v, pc := t.pc } ∧ ∀ a, t.readByte a = s.readByte a

/-- 44_display.md (rule R213's derived sentence): drawing the same sprite twice at the same place restores the
framebuffer, and the second draw reports a collision exactly when the first drew some bit onto a clear pixel. -/
def Obligations.DrawingTwiceRestoresTheScreen : Prop :=
  ∀ (x y : Reg) (n : Fin 16) (s : State), (n.val = 0 ∨ s.i.toNat + n.val ≤ 4096) → s.pc.toNat + 4 ≤ pcMax →
    ∃ t u, exec (.drwVxVyN x y n) s = .next t ∧ exec (.drwVxVyN x y n) { t with v := s.v } = .next u ∧
      u.fb = s.fb ∧
      (u.readV 15 = 1#8 ↔
        ∃ r c, s.fb.pixel r c = false ∧ s.spriteBit (s.readV x) (s.readV y) n.val r c = true)

/-! ### Keypad and timers -/

/-- 45_keypad_timers.md section 2 (rules R223, R226, R227): the three timer forms copy between `Vx` and a timer and move
to the next instruction; no other register, no byte of memory and nothing else changes. -/
def Obligations.TimerFormsCopyOneByte : Prop :=
  ∀ (x : Reg) (s : State), s.pc.toNat + 2 ≤ pcMax →
    (∃ t, exec (.ldVxDt x) s = .next t ∧ t.readV x = s.dt ∧ (∀ z, z ≠ x → t.readV z = s.readV z) ∧
      t.pc.toNat = s.pc.toNat + 2 ∧ t = { s with v := t.v, pc := t.pc } ∧ ∀ a, t.readByte a = s.readByte a) ∧
    (∃ t, exec (.ldDtVx x) s = .next t ∧ t.dt = s.readV x ∧ t.pc.toNat = s.pc.toNat + 2 ∧
      t = { s with dt := t.dt, pc := t.pc } ∧ ∀ a, t.readByte a = s.readByte a) ∧
    (∃ t, exec (.ldStVx x) s = .next t ∧ t.st = s.readV x ∧ t.pc.toNat = s.pc.toNat + 2 ∧
      t = { s with st := t.st, pc := t.pc } ∧ ∀ a, t.readByte a = s.readByte a)

/-- 45_keypad_timers.md section 1 (rule R224, details D16): `LD Vx,K` latches `x` and waits, with `PC`, every register
and everything else unchanged, whatever keys are held; where completion could not write `PC` it halts at once. -/
def Obligations.KeyWaitSuspendsWithoutAdvancing : Prop :=
  ∀ (x : Reg) (s : State),
    (s.pc.toNat + 2 ≤ pcMax → exec (.ldVxK x) s = .next { s with waitX := x, status := .waitingForKey }) ∧
    (s.pc.toNat + 2 > pcMax → exec (.ldVxK x) s = .next { s with status := .halted (.outOfBounds (s.pc.toNat + 2)) })

/-- 45_keypad_timers.md section 1 (rule R225, D16): a key press delivered to a waiting engine puts the key code,
zero-extended, in the latched register, moves `PC` to the next instruction and resumes; delivered in any other `STATUS`
it is lost. -/
def Obligations.KeyPressCompletesAWaitOnly : Prop :=
  ∀ (s : State) (k : Key) (rest : List Input), s.pending = .keyPress k :: rest →
    (s.status = .waitingForKey → s.pc.toNat + 2 ≤ pcMax →
      ∃ t, step s = .next t ∧ (t.readV s.waitX).toNat = k.toNat ∧ (∀ z, z ≠ s.waitX → t.readV z = s.readV z) ∧
        t.pc.toNat = s.pc.toNat + 2 ∧ t.status = .running ∧
        t = { s with v := t.v, pc := t.pc, status := t.status, pending := rest }) ∧
    (s.status ≠ .waitingForKey → step s = .next { s with pending := rest })

/-- Rule R129: `KeysUpdate` replaces all 16 bits of the snapshot at once, in any `STATUS`, and changes nothing else. -/
def Obligations.KeysUpdateReplacesTheSnapshotAlone : Prop :=
  ∀ (s : State) (snapshot : BitVec 16) (rest : List Input), s.pending = .keysUpdate snapshot :: rest →
    ∃ t, step s = .next t ∧ (∀ k : Fin 16, t.keys.getLsbD k = snapshot.getLsbD k) ∧
      t = { s with keys := t.keys, pending := rest }

/-- 60_exceptions.md section 5 (rule R260; in `Halted` D17): a tick lowers each timer by one, never below 0, the two
independently, in every `STATUS`, and changes nothing else. -/
def Obligations.TickLowersBothTimersAlone : Prop :=
  ∀ (s : State) (rest : List Input), s.run = true → s.pending = .request .tick :: rest →
    ∃ t, step s = .next t ∧ t.dt.toNat = s.dt.toNat - 1 ∧ t.st.toNat = s.st.toNat - 1 ∧
      t = { s with dt := t.dt, st := t.st, pending := rest }

/-! ### Reset, status, the whole machine -/

/-- 70_reset_and_hazards.md section 1 (rules R280 to R282; that `PC` becomes 0x200 and that RAM stays are D8, D9) and
60_exceptions.md section 6 (rule R265, the budgets): reset, in every `STATUS`, clears the registers, `I`, `SP`, the
stack, the timers, the framebuffer and the budgets, sets `STATUS` to `Running` and `PC` to 0x200, and leaves every byte
of RAM, the key snapshot and the configuration as they were. Three clauses are the model's choices and no rule's: the
inputs pending behind it stay (log 2), the count of random draws stays (log 3), the start/pause control stays (log 7). -/
def Obligations.ResetClearsTheBlockAndKeepsMemory : Prop :=
  ∀ (s : State) (rest : List Input), s.pending = .reset :: rest →
    ∃ t, step s = .next t ∧ (∀ x, t.readV x = 0#8) ∧ t.i = 0#12 ∧ t.sp.val = 0 ∧ (∀ j : Fin 16, t.stack[j] = 0#12) ∧
      t.dt = 0#8 ∧ t.st = 0#8 ∧ (∀ r c, t.fb.pixel r c = false) ∧ t.status = .running ∧ t.pc = 0x200#12 ∧
      t.cycleBudget = 0 ∧ t.tickBudget = 0 ∧ (∀ a, t.readByte a = s.readByte a) ∧ t.mem = s.mem ∧ t.keys = s.keys ∧
      t.config = s.config ∧ t.run = s.run ∧ t.rndDraws = s.rndDraws ∧ t.pending = rest

/-- 10_state.md section 9 (rules R37, R280), the values given there (PC's is the spec's choice D8): the state after
reset. The values the model chose (logs 2 to 7) are not stated. -/
def Obligations.ResetStateHasTheGivenValues : Prop :=
  (∀ x, State.reset.readV x = 0#8) ∧ State.reset.i = 0#12 ∧ State.reset.sp.val = 0 ∧
  (∀ j : Fin 16, State.reset.stack[j] = 0#12) ∧ State.reset.dt = 0#8 ∧ State.reset.st = 0#8 ∧
  (∀ r c, State.reset.fb.pixel r c = false) ∧ State.reset.status = .running ∧ State.reset.pc = 0x200#12 ∧
  State.reset.soundOn = false

/-- 10_state.md section 7 (the table of rule R30, "Transitions, and no others"): what each event does to `STATUS`, in
each `STATUS`. A cycle request to a running engine, pending first or unprompted, halts it with `UnknownOpcode` of the
word when the word is no instruction; else with the reason the instruction raises (the table of rule R240, in the
priority of R248), `PC` kept; else it leaves it waiting when the instruction is `LD Vx,K` and running otherwise. A cycle
request to an engine that does not run, or while paused, leaves `STATUS`; so do a tick, a keypad update, a pause, a
start and a sequencer iteration. That these arrive by a list is the model's choice (logs 2, 8), and so is what a fetch
at 4095 does, which no run reaches (log 11). -/
def Obligations.StatusTransitionsAndNoOthers : Prop :=
  (∀ (s t : State) (rest : List Input), s.pending = .reset :: rest → step s = .next t → t.status = .running) ∧
  (∀ (s t : State) (k : Key) (rest : List Input), s.pending = .keyPress k :: rest → step s = .next t →
    t.status = (if s.status = .waitingForKey then .running else s.status)) ∧
  (∀ (s t : State) (input : Input) (rest : List Input), s.pending = input :: rest →
    (input = .request .tick ∨ (∃ k, input = .keysUpdate k) ∨ (∃ b, input = .setRun b) ∨ ∃ dt o, input = .elapse dt o) →
    step s = .next t → t.status = s.status) ∧
  (∀ s t : State, s.cycleIsNext → s.status ≠ .running ∨ s.run = false → step s = .next t → t.status = s.status) ∧
  (∀ s t : State, s.cycleIsNext → s.status = .running → s.run = true → step s = .next t →
    (s.pc.toNat > pcMax → t.status = .halted (.outOfBounds 4096)) ∧
    (s.pc.toNat ≤ pcMax → (∀ i, decodeWord s.wordAtPc ≠ .ok i) → t.status = .halted (.unknownOpcode s.wordAtPc)) ∧
    (∀ (i : Instr), s.pc.toNat ≤ pcMax → decodeWord s.wordAtPc = .ok i →
      (∀ r, raisedHalt i s = some r → t.status = .halted r) ∧
      (raisedHalt i s = none → (∃ x, i = .ldVxK x) → t.status = .waitingForKey) ∧
      (raisedHalt i s = none → (∀ x, i ≠ .ldVxK x) → t.status = .running)) ∧
    (t.isHalted → t.pc = s.pc))

/-- 10_state.md section 8 (rule R33; the clauses about the stack are the spec's derived additions, the canonical memory
the model's, log 1): every step keeps the invariants, from every state that has them. -/
def Obligations.EveryStepKeepsTheInvariants : Prop :=
  ∀ s t : State, s.Inv → step s = .next t → t.Inv

/-- 10_state.md section 8 (rule R33) and 60_exceptions.md section 6 (rule R265): the state after reset has the
invariants, those of the sequencer's budgets too (`IPS` there is the model's choice, log 6). -/
def Obligations.ResetStateHasTheInvariants : Prop :=
  State.reset.Inv ∧ State.reset.BudgetInv

/-- 60_exceptions.md section 6 (rule R265): between events the budgets hold a fraction of one request. That a negative
elapsed time counts as none, and that a request which arrives as an input of its own leaves the budgets, are the model's
choices (log 8), and the statement rests on both. -/
def Obligations.EveryStepKeepsTheBudgetsFractions : Prop :=
  ∀ s t : State, s.BudgetInv → step s = .next t → t.BudgetInv

/-- 10_state.md sections 1 and 10 (rules R44, R48, R52): an event never changes the configuration; the key snapshot
changes only by a keypad update, the sequencer's control only by start or pause (that reset leaves the control is the
model's choice, log 7). -/
def Obligations.InputsChangeOnlyFromOutside : Prop :=
  ∀ s t : State, step s = .next t →
    t.config = s.config ∧ (t.keys = s.keys ∨ ∃ k rest, s.pending = .keysUpdate k :: rest) ∧
    (t.run = s.run ∨ ∃ b rest, s.pending = .setRun b :: rest)

/-- 10_state.md section 1, the column "written by" of the table of rule R20: each piece of state is written by no
instruction but those named there. The clauses about the model's own fields, the count of random draws and the pending
inputs, are the model's choices (logs 3, 2), and so is that `WAIT_X` keeps its value outside a wait (log 4). -/
def Obligations.StateIsWrittenOnlyByTheFormsNamed : Prop :=
  ∀ (i : Instr) (s t : State), exec i s = .next t →
    (t.fb = s.fb ∨ i = .cls ∨ ∃ x y n, i = .drwVxVyN x y n) ∧
    ((t.sp = s.sp ∧ t.stack = s.stack) ∨ i = .ret ∨ ∃ nnn, i = .callAddr nnn) ∧
    (t.stack = s.stack ∨ ∃ nnn, i = .callAddr nnn) ∧
    (t.dt = s.dt ∨ ∃ x, i = .ldDtVx x) ∧ (t.st = s.st ∨ ∃ x, i = .ldStVx x) ∧
    (t.waitX = s.waitX ∨ ∃ x, i = .ldVxK x) ∧
    (t.i = s.i ∨ (∃ nnn, i = .ldIAddr nnn) ∨ (∃ x, i = .addIVx x ∨ i = .ldFVx x) ∨
      s.config.quirkLoadStoreIncI = true ∧ ∃ x, i = .ldMemVx x ∨ i = .ldVxMem x) ∧
    ((∀ a, t.readByte a = s.readByte a) ∨ ∃ x, i = .ldBVx x ∨ i = .ldMemVx x) ∧
    (t.rndDraws = s.rndDraws ∨ ∃ x kk, i = .rndVxKk x kk) ∧
    (t.keys = s.keys ∧ t.config = s.config ∧ t.run = s.run ∧ t.cycleBudget = s.cycleBudget ∧
      t.tickBudget = s.tickBudget ∧ t.pending = s.pending)

/-- 10_state.md sections 5, 7 and 10 (rules R28, R32, R44): no instruction reads `ST` or `WAIT_X`, and none but `SKP`
and `SKNP` reads the key snapshot: two runs that differ only there differ only there afterwards. -/
def Obligations.SoundTimerLatchAndKeysAreNotRead : Prop :=
  ∀ (i : Instr) (s t : State), exec i s = .next t →
    (∀ b : Byte, ∃ c, exec i { s with st := b } = .next { t with st := c }) ∧
    (∀ w : Reg, ∃ c, exec i { s with waitX := w } = .next { t with waitX := c }) ∧
    (∀ k : BitVec 16, (∀ x, i ≠ .skpVx x ∧ i ≠ .sknpVx x) → exec i { s with keys := k } = .next { t with keys := k })

/-! ### Sequencer, loader, outputs -/

/-- 60_exceptions.md section 6 (rule R265; the free interleaving is D24): an iteration of `dt` seconds while running
issues next as many cycle requests and tick requests as the two budgets pay for, each kind by its own rate, and keeps
the fractions; it changes nothing else. That the requests come before the inputs already pending is the model's choice
(log 8). -/
def Obligations.IterationIssuesWhatTheBudgetsPayFor : Prop :=
  ∀ (s : State) (dt : Rat) (order : List Request) (rest : List Input), s.BudgetInv → s.run = true → 0 ≤ dt →
    s.pending = .elapse dt order :: rest →
    ∃ (t : State) (requests : List Request), step s = .next t ∧ t.pending = requests.map Input.request ++ rest ∧
      ((requests.count .cycle : Rat) + t.cycleBudget = s.cycleBudget + dt * s.config.ips) ∧
      ((requests.count .tick : Rat) + t.tickBudget = s.tickBudget + dt * 60) ∧
      0 ≤ t.cycleBudget ∧ t.cycleBudget < 1 ∧ 0 ≤ t.tickBudget ∧ t.tickBudget < 1 ∧
      t = { s with cycleBudget := t.cycleBudget, tickBudget := t.tickBudget, pending := t.pending }

/-- 60_exceptions.md section 6 (rule R266, the spec's choice D24): while paused no cycle and no tick happens and the
budgets do not grow: the machine is frozen, timers included. Requests that arrive from outside while paused are dropped:
the model's choice (log 8). -/
def Obligations.PausedMachineIsFrozen : Prop :=
  ∀ s : State, s.run = false →
    (s.pending = [] → step s = .next s) ∧
    (∀ (input : Input) (rest : List Input), s.pending = input :: rest →
      ((∃ r, input = .request r) ∨ ∃ dt o, input = .elapse dt o) → step s = .next { s with pending := rest })

/-- 70_reset_and_hazards.md section 2 and 20_memory.md section 4 (rules R71, R285; the layout is D10): the loader's font
is where `LD F` points, glyph `d` row `r` at `FONT_BASE + 5*d + r`; the loader's program is at 0x200 on; neither touches
another byte, and an image of more than 3584 bytes is not loaded. -/
def Obligations.LoaderPlacesFontAndProgram : Prop :=
  (∀ (s : State) (d : Fin 16) (r : Fin 5),
    s.loadFont.readByte (s.config.fontBase.toNat + 5 * d.val + r.val) = s.config.fontData[5 * d.val + r.val]) ∧
  (∀ (s : State) (a : Nat), a < s.config.fontBase.toNat ∨ s.config.fontBase.toNat + 79 < a →
    s.loadFont.readByte a = s.readByte a) ∧
  (∀ (s : State) (image : List Byte), image.length ≤ 3584 → ∃ t, s.loadProgram image = some t ∧
    (∀ k (h : k < image.length), t.readByte (0x200 + k) = image[k]) ∧
    ∀ a, a < 0x200 ∨ 0x200 + image.length ≤ a → t.readByte a = s.readByte a) ∧
  (∀ (s : State) (image : List Byte), image.length > 3584 → s.loadProgram image = none)

/-- 10_state.md section 10 and 60_exceptions.md section 1 (rules R50, R51, R240; the numbers are the spec's choice D18):
the output ports in each `STATUS`. -/
def Obligations.OutputsShowStatusAndSound : Prop :=
  ∀ s : State,
    (s.soundOn = true ↔ s.st ≠ 0#8) ∧
    (s.status = .running → s.statusCode = 0#2 ∧ s.haltCode = 0#3) ∧
    (s.status = .waitingForKey → s.statusCode = 1#2 ∧ s.haltCode = 0#3) ∧
    (∀ w, s.status = .halted (.unknownOpcode w) → s.statusCode = 2#2 ∧ s.haltCode = 1#3 ∧ s.haltInfo = w) ∧
    (∀ a, a < 65536 → s.status = .halted (.outOfBounds a) →
      s.statusCode = 2#2 ∧ s.haltCode = 2#3 ∧ s.haltInfo.toNat = a) ∧
    (s.status = .halted .stackOverflow → s.statusCode = 2#2 ∧ s.haltCode = 3#3 ∧ s.haltInfo = 0#16) ∧
    (s.status = .halted .stackUnderflow → s.statusCode = 2#2 ∧ s.haltCode = 4#3 ∧ s.haltInfo = 0#16) ∧
    (∀ a : Addr, s.status = .halted (.misalignedPC a) →
      s.statusCode = 2#2 ∧ s.haltCode = 5#3 ∧ s.haltInfo.toNat = a.toNat)
end

