-- ==== Sys2Proof/Laws/Decode.lean ====
section
/-!
SUPPORT. The bits of the encoder's formats, and what each field of the decoder reads from them.
-/
namespace Sys2Proof

/-! ### The bits of a format (rule R92) -/

theorem formatA_bit (op : BitVec 4) (nnn : Addr) (k : Nat) :
    (formatA op nnn).getLsbD k = if k < 12 then nnn.getLsbD k else op.getLsbD (k - 12) :=
  BitVec.getLsbD_append

theorem formatXK_bit (op : BitVec 4) (x : Reg) (kk : Byte) (k : Nat) :
    (formatXK op x kk).getLsbD k =
      if k < 8 then kk.getLsbD k
      else if k < 12 then x.val.testBit (k - 8) else op.getLsbD (k - 12) := by
  have h : (formatXK op x kk).getLsbD k = _ :=
    BitVec.getLsbD_append (x := op ++ (BitVec.ofFin x : BitVec 4)) (y := kk)
  rw [h, BitVec.getLsbD_append]
  by_cases h1 : k < 8
  · simp [h1]
  by_cases h2 : k < 12
  · have : k - 8 < 4 := by omega
    simp [h1, h2, this]
  · have : ¬ k - 8 < 4 := by omega
    have e : k - 8 - 4 = k - 12 := by omega
    simp [h1, h2, this, e]

theorem formatXY_bit (op : BitVec 4) (x y : Reg) (sub : BitVec 4) (k : Nat) :
    (formatXY op x y sub).getLsbD k =
      if k < 4 then sub.getLsbD k
      else if k < 8 then y.val.testBit (k - 4)
      else if k < 12 then x.val.testBit (k - 8) else op.getLsbD (k - 12) := by
  have h : (formatXY op x y sub).getLsbD k = _ :=
    BitVec.getLsbD_append (x := op ++ (BitVec.ofFin x : BitVec 4) ++ (BitVec.ofFin y : BitVec 4)) (y := sub)
  rw [h, BitVec.getLsbD_append, BitVec.getLsbD_append]
  by_cases h0 : k < 4
  · simp [h0]
  by_cases h1 : k < 8
  · have : k - 4 < 4 := by omega
    simp [h0, h1, this]
  by_cases h2 : k < 12
  · have a : ¬ k - 4 < 4 := by omega
    have b : k - 8 < 4 := by omega
    have c : k - 4 - 4 = k - 8 := by omega
    simp [h0, h1, h2, a, b, c]
  · have a : ¬ k - 4 < 4 := by omega
    have b : ¬ k - 8 < 4 := by omega
    have c : k - 4 - 4 = k - 8 := by omega
    have e : k - 8 - 4 = k - 12 := by omega
    simp [h0, h1, h2, a, b, c, e]

/-! ### The fields of a format (rule R91) -/

theorem opField_formatA (op : BitVec 4) (nnn : Addr) : opField (formatA op nnn) = op := by
  apply BitVec.eq_of_getLsbD_eq
  intro k hk
  have : ¬ 12 + k < 12 := by omega
  simp [opField, formatA_bit, this, hk]

theorem nnnField_formatA (op : BitVec 4) (nnn : Addr) : nnnField (formatA op nnn) = nnn := by
  apply BitVec.eq_of_getLsbD_eq
  intro k hk
  simp [nnnField, formatA_bit, hk]

theorem opField_formatXK (op : BitVec 4) (x : Reg) (kk : Byte) : opField (formatXK op x kk) = op := by
  apply BitVec.eq_of_getLsbD_eq
  intro k hk
  have a : ¬ 12 + k < 8 := by omega
  have b : ¬ 12 + k < 12 := by omega
  simp [opField, formatXK_bit, a, b, hk]

theorem kkField_formatXK (op : BitVec 4) (x : Reg) (kk : Byte) : kkField (formatXK op x kk) = kk := by
  apply BitVec.eq_of_getLsbD_eq
  intro k hk
  simp [kkField, formatXK_bit, hk]

/-- A register number read from four bits is the number those bits are the binary digits of. -/
theorem reg_of_bits (b : BitVec 4) (x : Reg) (h : ∀ k < 4, b.getLsbD k = x.val.testBit k) : b.toFin = x := by
  have e : b = BitVec.ofFin x := by
    apply BitVec.eq_of_getLsbD_eq
    intro k hk
    simpa using h k hk
  rw [e]

theorem xField_formatXK (op : BitVec 4) (x : Reg) (kk : Byte) : xField (formatXK op x kk) = x := by
  apply reg_of_bits
  intro k hk
  have a : ¬ 8 + k < 8 := by omega
  have b : 8 + k < 12 := by omega
  simp [formatXK_bit, b, hk]

theorem opField_formatXY (op : BitVec 4) (x y : Reg) (sub : BitVec 4) : opField (formatXY op x y sub) = op := by
  apply BitVec.eq_of_getLsbD_eq
  intro k hk
  have a : ¬ 12 + k < 4 := by omega
  have b : ¬ 12 + k < 8 := by omega
  have c : ¬ 12 + k < 12 := by omega
  simp [opField, formatXY_bit, a, b, c, hk]

theorem xField_formatXY (op : BitVec 4) (x y : Reg) (sub : BitVec 4) : xField (formatXY op x y sub) = x := by
  apply reg_of_bits
  intro k hk
  have a : ¬ 8 + k < 4 := by omega
  have c : 8 + k < 12 := by omega
  simp [formatXY_bit, a, c, hk]

theorem yField_formatXY (op : BitVec 4) (x y : Reg) (sub : BitVec 4) : yField (formatXY op x y sub) = y := by
  apply reg_of_bits
  intro k hk
  have b : 4 + k < 8 := by omega
  simp [formatXY_bit, b, hk]

theorem subField_formatXY (op : BitVec 4) (x y : Reg) (sub : BitVec 4) : subField (formatXY op x y sub) = sub := by
  apply BitVec.eq_of_getLsbD_eq
  intro k hk
  simp [subField, formatXY_bit, hk]

theorem nField_formatXY (op : BitVec 4) (x y : Reg) (n : Fin 16) : nField (formatXY op x y (BitVec.ofFin n)) = n := by
  apply reg_of_bits
  intro k hk
  simp [formatXY_bit, hk]

/-! ### A format against a row's mask and match (rule R94) -/

theorem formatA_matches (op : BitVec 4) (nnn : Addr) : formatA op nnn &&& 0xF000#16 = formatA op 0 := by
  apply BitVec.eq_of_getLsbD_eq
  intro k hk
  rw [BitVec.getLsbD_and, formatA_bit, formatA_bit]
  interval_cases k <;> simp

theorem formatXK_matches (op : BitVec 4) (x : Reg) (kk : Byte) : formatXK op x kk &&& 0xF000#16 = formatXK op 0 0 := by
  apply BitVec.eq_of_getLsbD_eq
  intro k hk
  rw [BitVec.getLsbD_and, formatXK_bit, formatXK_bit]
  interval_cases k <;> simp

theorem formatX_matches (op : BitVec 4) (x : Reg) (kk : Byte) : formatXK op x kk &&& 0xF0FF#16 = formatXK op 0 kk := by
  apply BitVec.eq_of_getLsbD_eq
  intro k hk
  rw [BitVec.getLsbD_and, formatXK_bit, formatXK_bit]
  interval_cases k <;> simp

theorem formatXY_matches (op : BitVec 4) (x y : Reg) (sub : BitVec 4) :
    formatXY op x y sub &&& 0xF00F#16 = formatXY op 0 0 sub := by
  apply BitVec.eq_of_getLsbD_eq
  intro k hk
  rw [BitVec.getLsbD_and, formatXY_bit, formatXY_bit]
  interval_cases k <;> simp

theorem formatXYN_matches (op : BitVec 4) (x y : Reg) (n : BitVec 4) :
    formatXY op x y n &&& 0xF000#16 = formatXY op 0 0 0 := by
  apply BitVec.eq_of_getLsbD_eq
  intro k hk
  rw [BitVec.getLsbD_and, formatXY_bit, formatXY_bit]
  interval_cases k <;> simp

end Sys2Proof
end

