-- ==== Sys2Proof/Laws/State.lean ====
section
/-!
SUPPORT. What each named update of the state leaves in each field: one lemma for each field it does not write, and what
it puts in the field it does.
-/
namespace Sys2Proof.Machine

/-! ### `State.writeV` -/

@[simp] theorem State.writeV_i (s : State) (x : Reg) (b : Byte) : (s.writeV x b).i = s.i := rfl
@[simp] theorem State.writeV_pc (s : State) (x : Reg) (b : Byte) : (s.writeV x b).pc = s.pc := rfl
@[simp] theorem State.writeV_sp (s : State) (x : Reg) (b : Byte) : (s.writeV x b).sp = s.sp := rfl
@[simp] theorem State.writeV_stack (s : State) (x : Reg) (b : Byte) : (s.writeV x b).stack = s.stack := rfl
@[simp] theorem State.writeV_dt (s : State) (x : Reg) (b : Byte) : (s.writeV x b).dt = s.dt := rfl
@[simp] theorem State.writeV_st (s : State) (x : Reg) (b : Byte) : (s.writeV x b).st = s.st := rfl
@[simp] theorem State.writeV_fb (s : State) (x : Reg) (b : Byte) : (s.writeV x b).fb = s.fb := rfl
@[simp] theorem State.writeV_status (s : State) (x : Reg) (b : Byte) : (s.writeV x b).status = s.status := rfl
@[simp] theorem State.writeV_waitX (s : State) (x : Reg) (b : Byte) : (s.writeV x b).waitX = s.waitX := rfl
@[simp] theorem State.writeV_mem (s : State) (x : Reg) (b : Byte) : (s.writeV x b).mem = s.mem := rfl
@[simp] theorem State.writeV_keys (s : State) (x : Reg) (b : Byte) : (s.writeV x b).keys = s.keys := rfl
@[simp] theorem State.writeV_config (s : State) (x : Reg) (b : Byte) : (s.writeV x b).config = s.config := rfl
@[simp] theorem State.writeV_run (s : State) (x : Reg) (b : Byte) : (s.writeV x b).run = s.run := rfl
@[simp] theorem State.writeV_cycleBudget (s : State) (x : Reg) (b : Byte) : (s.writeV x b).cycleBudget = s.cycleBudget := rfl
@[simp] theorem State.writeV_tickBudget (s : State) (x : Reg) (b : Byte) : (s.writeV x b).tickBudget = s.tickBudget := rfl
@[simp] theorem State.writeV_rndDraws (s : State) (x : Reg) (b : Byte) : (s.writeV x b).rndDraws = s.rndDraws := rfl
@[simp] theorem State.writeV_pending (s : State) (x : Reg) (b : Byte) : (s.writeV x b).pending = s.pending := rfl

/-! ### `State.writeByte` -/

@[simp] theorem State.writeByte_v (s : State) (a : Nat) (b : Byte) : (s.writeByte a b).v = s.v := rfl
@[simp] theorem State.writeByte_i (s : State) (a : Nat) (b : Byte) : (s.writeByte a b).i = s.i := rfl
@[simp] theorem State.writeByte_pc (s : State) (a : Nat) (b : Byte) : (s.writeByte a b).pc = s.pc := rfl
@[simp] theorem State.writeByte_sp (s : State) (a : Nat) (b : Byte) : (s.writeByte a b).sp = s.sp := rfl
@[simp] theorem State.writeByte_stack (s : State) (a : Nat) (b : Byte) : (s.writeByte a b).stack = s.stack := rfl
@[simp] theorem State.writeByte_dt (s : State) (a : Nat) (b : Byte) : (s.writeByte a b).dt = s.dt := rfl
@[simp] theorem State.writeByte_st (s : State) (a : Nat) (b : Byte) : (s.writeByte a b).st = s.st := rfl
@[simp] theorem State.writeByte_fb (s : State) (a : Nat) (b : Byte) : (s.writeByte a b).fb = s.fb := rfl
@[simp] theorem State.writeByte_status (s : State) (a : Nat) (b : Byte) : (s.writeByte a b).status = s.status := rfl
@[simp] theorem State.writeByte_waitX (s : State) (a : Nat) (b : Byte) : (s.writeByte a b).waitX = s.waitX := rfl
@[simp] theorem State.writeByte_keys (s : State) (a : Nat) (b : Byte) : (s.writeByte a b).keys = s.keys := rfl
@[simp] theorem State.writeByte_config (s : State) (a : Nat) (b : Byte) : (s.writeByte a b).config = s.config := rfl
@[simp] theorem State.writeByte_run (s : State) (a : Nat) (b : Byte) : (s.writeByte a b).run = s.run := rfl
@[simp] theorem State.writeByte_cycleBudget (s : State) (a : Nat) (b : Byte) : (s.writeByte a b).cycleBudget = s.cycleBudget := rfl
@[simp] theorem State.writeByte_tickBudget (s : State) (a : Nat) (b : Byte) : (s.writeByte a b).tickBudget = s.tickBudget := rfl
@[simp] theorem State.writeByte_rndDraws (s : State) (a : Nat) (b : Byte) : (s.writeByte a b).rndDraws = s.rndDraws := rfl
@[simp] theorem State.writeByte_pending (s : State) (a : Nat) (b : Byte) : (s.writeByte a b).pending = s.pending := rfl

/-! ### `State.raiseHalt` -/

@[simp] theorem State.raiseHalt_v (s : State) (r : HaltReason) : (s.raiseHalt r).v = s.v := rfl
@[simp] theorem State.raiseHalt_i (s : State) (r : HaltReason) : (s.raiseHalt r).i = s.i := rfl
@[simp] theorem State.raiseHalt_pc (s : State) (r : HaltReason) : (s.raiseHalt r).pc = s.pc := rfl
@[simp] theorem State.raiseHalt_sp (s : State) (r : HaltReason) : (s.raiseHalt r).sp = s.sp := rfl
@[simp] theorem State.raiseHalt_stack (s : State) (r : HaltReason) : (s.raiseHalt r).stack = s.stack := rfl
@[simp] theorem State.raiseHalt_dt (s : State) (r : HaltReason) : (s.raiseHalt r).dt = s.dt := rfl
@[simp] theorem State.raiseHalt_st (s : State) (r : HaltReason) : (s.raiseHalt r).st = s.st := rfl
@[simp] theorem State.raiseHalt_fb (s : State) (r : HaltReason) : (s.raiseHalt r).fb = s.fb := rfl
@[simp] theorem State.raiseHalt_waitX (s : State) (r : HaltReason) : (s.raiseHalt r).waitX = s.waitX := rfl
@[simp] theorem State.raiseHalt_mem (s : State) (r : HaltReason) : (s.raiseHalt r).mem = s.mem := rfl
@[simp] theorem State.raiseHalt_keys (s : State) (r : HaltReason) : (s.raiseHalt r).keys = s.keys := rfl
@[simp] theorem State.raiseHalt_config (s : State) (r : HaltReason) : (s.raiseHalt r).config = s.config := rfl
@[simp] theorem State.raiseHalt_run (s : State) (r : HaltReason) : (s.raiseHalt r).run = s.run := rfl
@[simp] theorem State.raiseHalt_cycleBudget (s : State) (r : HaltReason) : (s.raiseHalt r).cycleBudget = s.cycleBudget := rfl
@[simp] theorem State.raiseHalt_tickBudget (s : State) (r : HaltReason) : (s.raiseHalt r).tickBudget = s.tickBudget := rfl
@[simp] theorem State.raiseHalt_rndDraws (s : State) (r : HaltReason) : (s.raiseHalt r).rndDraws = s.rndDraws := rfl
@[simp] theorem State.raiseHalt_pending (s : State) (r : HaltReason) : (s.raiseHalt r).pending = s.pending := rfl

/-! ### `State.loadBytes` -/

@[simp] theorem State.loadBytes_v (s : State) (a : Nat) (bytes : List Byte) : (s.loadBytes a bytes).v = s.v := rfl
@[simp] theorem State.loadBytes_i (s : State) (a : Nat) (bytes : List Byte) : (s.loadBytes a bytes).i = s.i := rfl
@[simp] theorem State.loadBytes_pc (s : State) (a : Nat) (bytes : List Byte) : (s.loadBytes a bytes).pc = s.pc := rfl
@[simp] theorem State.loadBytes_sp (s : State) (a : Nat) (bytes : List Byte) : (s.loadBytes a bytes).sp = s.sp := rfl
@[simp] theorem State.loadBytes_stack (s : State) (a : Nat) (bytes : List Byte) : (s.loadBytes a bytes).stack = s.stack := rfl
@[simp] theorem State.loadBytes_dt (s : State) (a : Nat) (bytes : List Byte) : (s.loadBytes a bytes).dt = s.dt := rfl
@[simp] theorem State.loadBytes_st (s : State) (a : Nat) (bytes : List Byte) : (s.loadBytes a bytes).st = s.st := rfl
@[simp] theorem State.loadBytes_fb (s : State) (a : Nat) (bytes : List Byte) : (s.loadBytes a bytes).fb = s.fb := rfl
@[simp] theorem State.loadBytes_status (s : State) (a : Nat) (bytes : List Byte) : (s.loadBytes a bytes).status = s.status := rfl
@[simp] theorem State.loadBytes_waitX (s : State) (a : Nat) (bytes : List Byte) : (s.loadBytes a bytes).waitX = s.waitX := rfl
@[simp] theorem State.loadBytes_keys (s : State) (a : Nat) (bytes : List Byte) : (s.loadBytes a bytes).keys = s.keys := rfl
@[simp] theorem State.loadBytes_config (s : State) (a : Nat) (bytes : List Byte) : (s.loadBytes a bytes).config = s.config := rfl
@[simp] theorem State.loadBytes_run (s : State) (a : Nat) (bytes : List Byte) : (s.loadBytes a bytes).run = s.run := rfl
@[simp] theorem State.loadBytes_cycleBudget (s : State) (a : Nat) (bytes : List Byte) : (s.loadBytes a bytes).cycleBudget = s.cycleBudget := rfl
@[simp] theorem State.loadBytes_tickBudget (s : State) (a : Nat) (bytes : List Byte) : (s.loadBytes a bytes).tickBudget = s.tickBudget := rfl
@[simp] theorem State.loadBytes_rndDraws (s : State) (a : Nat) (bytes : List Byte) : (s.loadBytes a bytes).rndDraws = s.rndDraws := rfl
@[simp] theorem State.loadBytes_pending (s : State) (a : Nat) (bytes : List Byte) : (s.loadBytes a bytes).pending = s.pending := rfl

/-! ### `State.writeResultFlag` -/

@[simp] theorem State.writeResultFlag_i (s : State) (x : Reg) (r f : Byte) : (s.writeResultFlag x r f).i = s.i := rfl
@[simp] theorem State.writeResultFlag_pc (s : State) (x : Reg) (r f : Byte) : (s.writeResultFlag x r f).pc = s.pc := rfl
@[simp] theorem State.writeResultFlag_sp (s : State) (x : Reg) (r f : Byte) : (s.writeResultFlag x r f).sp = s.sp := rfl
@[simp] theorem State.writeResultFlag_stack (s : State) (x : Reg) (r f : Byte) : (s.writeResultFlag x r f).stack = s.stack := rfl
@[simp] theorem State.writeResultFlag_dt (s : State) (x : Reg) (r f : Byte) : (s.writeResultFlag x r f).dt = s.dt := rfl
@[simp] theorem State.writeResultFlag_st (s : State) (x : Reg) (r f : Byte) : (s.writeResultFlag x r f).st = s.st := rfl
@[simp] theorem State.writeResultFlag_fb (s : State) (x : Reg) (r f : Byte) : (s.writeResultFlag x r f).fb = s.fb := rfl
@[simp] theorem State.writeResultFlag_status (s : State) (x : Reg) (r f : Byte) : (s.writeResultFlag x r f).status = s.status := rfl
@[simp] theorem State.writeResultFlag_waitX (s : State) (x : Reg) (r f : Byte) : (s.writeResultFlag x r f).waitX = s.waitX := rfl
@[simp] theorem State.writeResultFlag_mem (s : State) (x : Reg) (r f : Byte) : (s.writeResultFlag x r f).mem = s.mem := rfl
@[simp] theorem State.writeResultFlag_keys (s : State) (x : Reg) (r f : Byte) : (s.writeResultFlag x r f).keys = s.keys := rfl
@[simp] theorem State.writeResultFlag_config (s : State) (x : Reg) (r f : Byte) : (s.writeResultFlag x r f).config = s.config := rfl
@[simp] theorem State.writeResultFlag_run (s : State) (x : Reg) (r f : Byte) : (s.writeResultFlag x r f).run = s.run := rfl
@[simp] theorem State.writeResultFlag_cycleBudget (s : State) (x : Reg) (r f : Byte) : (s.writeResultFlag x r f).cycleBudget = s.cycleBudget := rfl
@[simp] theorem State.writeResultFlag_tickBudget (s : State) (x : Reg) (r f : Byte) : (s.writeResultFlag x r f).tickBudget = s.tickBudget := rfl
@[simp] theorem State.writeResultFlag_rndDraws (s : State) (x : Reg) (r f : Byte) : (s.writeResultFlag x r f).rndDraws = s.rndDraws := rfl
@[simp] theorem State.writeResultFlag_pending (s : State) (x : Reg) (r f : Byte) : (s.writeResultFlag x r f).pending = s.pending := rfl

/-! ### `State.tick` -/

@[simp] theorem State.tick_v (s : State) : (s.tick).v = s.v := rfl
@[simp] theorem State.tick_i (s : State) : (s.tick).i = s.i := rfl
@[simp] theorem State.tick_pc (s : State) : (s.tick).pc = s.pc := rfl
@[simp] theorem State.tick_sp (s : State) : (s.tick).sp = s.sp := rfl
@[simp] theorem State.tick_stack (s : State) : (s.tick).stack = s.stack := rfl
@[simp] theorem State.tick_fb (s : State) : (s.tick).fb = s.fb := rfl
@[simp] theorem State.tick_status (s : State) : (s.tick).status = s.status := rfl
@[simp] theorem State.tick_waitX (s : State) : (s.tick).waitX = s.waitX := rfl
@[simp] theorem State.tick_mem (s : State) : (s.tick).mem = s.mem := rfl
@[simp] theorem State.tick_keys (s : State) : (s.tick).keys = s.keys := rfl
@[simp] theorem State.tick_config (s : State) : (s.tick).config = s.config := rfl
@[simp] theorem State.tick_run (s : State) : (s.tick).run = s.run := rfl
@[simp] theorem State.tick_cycleBudget (s : State) : (s.tick).cycleBudget = s.cycleBudget := rfl
@[simp] theorem State.tick_tickBudget (s : State) : (s.tick).tickBudget = s.tickBudget := rfl
@[simp] theorem State.tick_rndDraws (s : State) : (s.tick).rndDraws = s.rndDraws := rfl
@[simp] theorem State.tick_pending (s : State) : (s.tick).pending = s.pending := rfl

/-! ### `State.keysUpdate` -/

@[simp] theorem State.keysUpdate_v (s : State) (k : BitVec 16) : (s.keysUpdate k).v = s.v := rfl
@[simp] theorem State.keysUpdate_i (s : State) (k : BitVec 16) : (s.keysUpdate k).i = s.i := rfl
@[simp] theorem State.keysUpdate_pc (s : State) (k : BitVec 16) : (s.keysUpdate k).pc = s.pc := rfl
@[simp] theorem State.keysUpdate_sp (s : State) (k : BitVec 16) : (s.keysUpdate k).sp = s.sp := rfl
@[simp] theorem State.keysUpdate_stack (s : State) (k : BitVec 16) : (s.keysUpdate k).stack = s.stack := rfl
@[simp] theorem State.keysUpdate_dt (s : State) (k : BitVec 16) : (s.keysUpdate k).dt = s.dt := rfl
@[simp] theorem State.keysUpdate_st (s : State) (k : BitVec 16) : (s.keysUpdate k).st = s.st := rfl
@[simp] theorem State.keysUpdate_fb (s : State) (k : BitVec 16) : (s.keysUpdate k).fb = s.fb := rfl
@[simp] theorem State.keysUpdate_status (s : State) (k : BitVec 16) : (s.keysUpdate k).status = s.status := rfl
@[simp] theorem State.keysUpdate_waitX (s : State) (k : BitVec 16) : (s.keysUpdate k).waitX = s.waitX := rfl
@[simp] theorem State.keysUpdate_mem (s : State) (k : BitVec 16) : (s.keysUpdate k).mem = s.mem := rfl
@[simp] theorem State.keysUpdate_config (s : State) (k : BitVec 16) : (s.keysUpdate k).config = s.config := rfl
@[simp] theorem State.keysUpdate_run (s : State) (k : BitVec 16) : (s.keysUpdate k).run = s.run := rfl
@[simp] theorem State.keysUpdate_cycleBudget (s : State) (k : BitVec 16) : (s.keysUpdate k).cycleBudget = s.cycleBudget := rfl
@[simp] theorem State.keysUpdate_tickBudget (s : State) (k : BitVec 16) : (s.keysUpdate k).tickBudget = s.tickBudget := rfl
@[simp] theorem State.keysUpdate_rndDraws (s : State) (k : BitVec 16) : (s.keysUpdate k).rndDraws = s.rndDraws := rfl
@[simp] theorem State.keysUpdate_pending (s : State) (k : BitVec 16) : (s.keysUpdate k).pending = s.pending := rfl

/-! ### `State.bumpI` -/

@[simp] theorem State.bumpI_v (s : State) (x : Reg) : (s.bumpI x).v = s.v := by unfold State.bumpI; split <;> rfl
@[simp] theorem State.bumpI_pc (s : State) (x : Reg) : (s.bumpI x).pc = s.pc := by unfold State.bumpI; split <;> rfl
@[simp] theorem State.bumpI_sp (s : State) (x : Reg) : (s.bumpI x).sp = s.sp := by unfold State.bumpI; split <;> rfl
@[simp] theorem State.bumpI_stack (s : State) (x : Reg) : (s.bumpI x).stack = s.stack := by unfold State.bumpI; split <;> rfl
@[simp] theorem State.bumpI_dt (s : State) (x : Reg) : (s.bumpI x).dt = s.dt := by unfold State.bumpI; split <;> rfl
@[simp] theorem State.bumpI_st (s : State) (x : Reg) : (s.bumpI x).st = s.st := by unfold State.bumpI; split <;> rfl
@[simp] theorem State.bumpI_fb (s : State) (x : Reg) : (s.bumpI x).fb = s.fb := by unfold State.bumpI; split <;> rfl
@[simp] theorem State.bumpI_status (s : State) (x : Reg) : (s.bumpI x).status = s.status := by unfold State.bumpI; split <;> rfl
@[simp] theorem State.bumpI_waitX (s : State) (x : Reg) : (s.bumpI x).waitX = s.waitX := by unfold State.bumpI; split <;> rfl
@[simp] theorem State.bumpI_mem (s : State) (x : Reg) : (s.bumpI x).mem = s.mem := by unfold State.bumpI; split <;> rfl
@[simp] theorem State.bumpI_keys (s : State) (x : Reg) : (s.bumpI x).keys = s.keys := by unfold State.bumpI; split <;> rfl
@[simp] theorem State.bumpI_config (s : State) (x : Reg) : (s.bumpI x).config = s.config := by unfold State.bumpI; split <;> rfl
@[simp] theorem State.bumpI_run (s : State) (x : Reg) : (s.bumpI x).run = s.run := by unfold State.bumpI; split <;> rfl
@[simp] theorem State.bumpI_cycleBudget (s : State) (x : Reg) : (s.bumpI x).cycleBudget = s.cycleBudget := by unfold State.bumpI; split <;> rfl
@[simp] theorem State.bumpI_tickBudget (s : State) (x : Reg) : (s.bumpI x).tickBudget = s.tickBudget := by unfold State.bumpI; split <;> rfl
@[simp] theorem State.bumpI_rndDraws (s : State) (x : Reg) : (s.bumpI x).rndDraws = s.rndDraws := by unfold State.bumpI; split <;> rfl
@[simp] theorem State.bumpI_pending (s : State) (x : Reg) : (s.bumpI x).pending = s.pending := by unfold State.bumpI; split <;> rfl

/-! ### What an update writes -/

@[simp] theorem State.raiseHalt_status (s : State) (r : HaltReason) : (s.raiseHalt r).status = .halted r := rfl
@[simp] theorem State.writeByte_mem (s : State) (a : Nat) (b : Byte) : (s.writeByte a b).mem = s.mem.write a b := rfl
@[simp] theorem State.loadBytes_mem (s : State) (a : Nat) (bytes : List Byte) :
    (s.loadBytes a bytes).mem = s.mem.place a bytes := rfl
@[simp] theorem State.tick_dt (s : State) : s.tick.dt = countDown s.dt := rfl
@[simp] theorem State.tick_st (s : State) : s.tick.st = countDown s.st := rfl
@[simp] theorem State.keysUpdate_keys (s : State) (k : BitVec 16) : (s.keysUpdate k).keys = k := rfl

/-- A register reads back what was written to it, and every other register what it held. -/
theorem State.readV_writeV (s : State) (x y : Reg) (b : Byte) :
    (s.writeV x b).readV y = if y = x then b else s.readV y := by
  unfold State.readV State.writeV
  by_cases h : y = x
  · subst h; simp
  · have : x.val ≠ y.val := fun e => h (Fin.ext e.symm)
    simp [h, this]

@[simp] theorem State.readV_writeV_same (s : State) (x : Reg) (b : Byte) : (s.writeV x b).readV x = b := by
  simp [State.readV_writeV]

theorem State.readV_writeV_other (s : State) {x y : Reg} (b : Byte) (h : y ≠ x) :
    (s.writeV x b).readV y = s.readV y := by
  simp [State.readV_writeV, h]

/-- Result then flag (rule R161): `VF` ends as the flag, `Vx` as the result unless it is `VF`. -/
theorem State.readV_writeResultFlag (s : State) (x y : Reg) (r f : Byte) :
    (s.writeResultFlag x r f).readV y = if y = 15 then f else if y = x then r else s.readV y := by
  simp only [State.writeResultFlag, State.readV_writeV]

/-- A record update of a field other than `v` reads the same registers. -/
theorem State.readV_congr {s t : State} (h : t.v = s.v) (y : Reg) : t.readV y = s.readV y := by
  simp only [State.readV, h]

/-- A state with the same memory reads the same bytes. -/
theorem State.readByte_congr {s t : State} (h : t.mem = s.mem) (a : Nat) : t.readByte a = s.readByte a := by
  simp only [State.readByte, h]

end Sys2Proof.Machine
end

