-- ==== Sys2Proof/Laws/Memory.lean ====
section
/-!
SUPPORT. Memory: a read after a write, and that every memory operation keeps the canonical form.
-/
namespace Sys2Proof.Machine

/-- A byte reads back what was written to its address, and every other address what it held (rules R62, R63). -/
theorem Memory.find_write (m : Memory) (a k : Nat) (b : Byte) :
    (m.write a b).find k = if k = a then some b else m.find k := by
  induction m with
  | nil => simp only [Memory.write, Memory.find, eq_comm]
  | cons c rest ih =>
    obtain ⟨ck, cb⟩ := c
    simp only [Memory.write]
    by_cases h1 : a < ck
    · simp only [h1, if_true, Memory.find, eq_comm]
    by_cases h2 : a = ck
    · subst h2
      by_cases e : k = a
      · simp only [h1, if_false, if_true, Memory.find, e]
      · have e' : ¬ a = k := fun x => e x.symm
        simp only [h1, if_false, if_true, Memory.find, e, e']
    · simp only [h1, h2, if_false, Memory.find, ih]
      by_cases e : ck = k
      · have : k ≠ a := by omega
        simp only [e, this, if_true, if_false]
      · simp only [e, if_false]

/-- The addresses of a memory rise from any lower bound too. -/
theorem Memory.risesFrom_mono (m : Memory) {lo lo' : Nat} (hlo : lo' ≤ lo) (h : m.risesFrom lo = true) :
    m.risesFrom lo' = true := by
  cases m with
  | nil => rfl
  | cons c rest =>
    simp only [Memory.risesFrom, Bool.and_eq_true, decide_eq_true_eq] at h ⊢
    exact ⟨⟨by omega, h.1.2⟩, h.2⟩

theorem Memory.risesFrom_write (m : Memory) (a : Nat) (b : Byte) (lo : Nat) (hlo : lo ≤ a) (ha : a < memSize)
    (h : m.risesFrom lo = true) : (m.write a b).risesFrom lo = true := by
  induction m generalizing lo with
  | nil => simp [Memory.write, Memory.risesFrom, hlo, ha]
  | cons c rest ih =>
    obtain ⟨ck, cb⟩ := c
    simp only [Memory.risesFrom, Bool.and_eq_true, decide_eq_true_eq] at h
    simp only [Memory.write]
    by_cases h1 : a < ck
    · simp only [h1, if_true, Memory.risesFrom, Bool.and_eq_true, decide_eq_true_eq]
      exact ⟨⟨hlo, ha⟩, ⟨⟨by omega, h.1.2⟩, h.2⟩⟩
    by_cases h2 : a = ck
    · subst h2
      simp only [h1, if_false, if_true, Memory.risesFrom, Bool.and_eq_true, decide_eq_true_eq]
      exact ⟨⟨hlo, ha⟩, h.2⟩
    · simp only [h1, h2, if_false, Memory.risesFrom, Bool.and_eq_true, decide_eq_true_eq]
      exact ⟨h.1, ih (ck + 1) (by omega) h.2⟩

/-- Writing a RAM address keeps the canonical form. -/
theorem Memory.wf_write {m : Memory} {a : Nat} (b : Byte) (ha : a < memSize) (h : m.wf = true) :
    (m.write a b).wf = true :=
  Memory.risesFrom_write m a b 0 (Nat.zero_le _) ha h

/-- Placing bytes that all lie in RAM keeps the canonical form. -/
theorem Memory.wf_place {m : Memory} {a : Nat} {bytes : List Byte} (ha : a + bytes.length ≤ memSize)
    (h : m.wf = true) : (m.place a bytes).wf = true := by
  induction bytes generalizing m a with
  | nil => exact h
  | cons b rest ih =>
    simp only [List.length_cons] at ha
    exact ih (by omega) (Memory.wf_write b (by omega) h)

/-- Bytes placed at ascending addresses read back in order; every other address holds what it held. -/
theorem Memory.find_place (m : Memory) (a k : Nat) (bytes : List Byte) :
    (m.place a bytes).find k =
      if a ≤ k ∧ k < a + bytes.length then bytes[k - a]? else m.find k := by
  induction bytes generalizing m a with
  | nil =>
    have : ¬ (a ≤ k ∧ k < a + ([] : List Byte).length) := by simp
    simp only [this, if_false, Memory.place]
  | cons b rest ih =>
    rw [Memory.place, ih, Memory.find_write, List.length_cons]
    by_cases e : k = a
    · subst e
      have c : ¬ (k + 1 ≤ k ∧ k < k + 1 + rest.length) := by omega
      have d : k ≤ k ∧ k < k + (rest.length + 1) := by omega
      simp only [c, d, and_self, if_true, if_false, Nat.sub_self, List.getElem?_cons_zero]
    · by_cases d : a + 1 ≤ k ∧ k < a + 1 + rest.length
      · have d' : a ≤ k ∧ k < a + (rest.length + 1) := by omega
        have e' : k - a = k - (a + 1) + 1 := by omega
        simp only [d, d', and_self, if_true, e', List.getElem?_cons_succ]
      · have d' : ¬ (a ≤ k ∧ k < a + (rest.length + 1)) := by omega
        simp only [d, d', e, if_false]

/-- A byte reads back what was written, every other address what it held. -/
theorem State.readByte_writeByte (s : State) (a k : Nat) (b : Byte) :
    (s.writeByte a b).readByte k = if k = a then b else s.readByte k := by
  simp only [State.readByte, State.writeByte, Memory.find_write]
  by_cases e : k = a
  · simp only [e, if_true, Option.getD_some]
  · simp only [e, if_false]

/-- Bytes the loader or a store has placed read back in order; every other address reads as before. -/
theorem State.readByte_place (s : State) (a k : Nat) (bytes : List Byte) :
    State.readByte { s with mem := s.mem.place a bytes } k =
      if h : a ≤ k ∧ k < a + bytes.length then bytes[k - a]'(by omega) else s.readByte k := by
  simp only [State.readByte, Memory.find_place]
  by_cases h : a ≤ k ∧ k < a + bytes.length
  · have : k - a < bytes.length := by omega
    rw [if_pos h, dif_pos h, List.getElem?_eq_getElem this, Option.getD_some]
  · rw [if_neg h, dif_neg h]

/-- `State.reset`'s memory is canonical. -/
theorem reset_mem_wf : State.reset.mem.wf = true := rfl

end Sys2Proof.Machine
end

