-- ==== Sys2Proof/Laws/Ops.lean ====
section
/-!
SUPPORT. One lemma for each shared operation, saying once everything it can do.
-/
namespace Sys2Proof.Machine

/-! ### Halting and finishing -/

/-- `Advance` inside memory: the writes happen and `PC` moves (rule R124). -/
theorem State.finish_of_le {s t : State} {k : Nat} (h : s.pc.toNat + k ≤ pcMax) :
    s.finish t k = .next { t with pc := BitVec.ofNat 12 (s.pc.toNat + k) } := by
  simp only [State.finish, Nat.not_lt.mpr h, if_false]

/-- `Advance` past 4094: a halt and nothing else (rules R124, R242). -/
theorem State.finish_of_gt {s t : State} {k : Nat} (h : s.pc.toNat + k > pcMax) :
    s.finish t k = .next (s.raiseHalt (.outOfBounds (s.pc.toNat + k))) := by
  simp only [State.finish, h, if_true, State.halt]

/-- Everything `finish` can answer. -/
theorem State.finish_cases {s t u : State} {k : Nat} (h : s.finish t k = .next u) :
    (s.pc.toNat + k ≤ pcMax ∧ u = { t with pc := BitVec.ofNat 12 (s.pc.toNat + k) }) ∨
    (s.pc.toNat + k > pcMax ∧ u = s.raiseHalt (.outOfBounds (s.pc.toNat + k))) := by
  by_cases hk : s.pc.toNat + k > pcMax
  · rw [State.finish_of_gt hk] at h; cases h; exact .inr ⟨hk, rfl⟩
  · have hk' := Nat.not_lt.mp hk
    rw [State.finish_of_le hk'] at h; cases h; exact .inl ⟨hk', rfl⟩

/-- Everything `transfer` can answer (rule R141). -/
theorem State.transfer_cases {s t u : State} {target : Addr} (h : s.transfer t target = .next u) :
    (target.toNat % 2 = 0 ∧ u = { t with pc := target }) ∨
    (target.toNat % 2 = 1 ∧ u = s.raiseHalt (.misalignedPC target)) := by
  unfold State.transfer at h
  have hb : target.getLsbD 0 = decide (target.toNat % 2 = 1) := by simp [BitVec.getLsbD, Nat.testBit_zero]
  rw [hb] at h
  by_cases e : target.toNat % 2 = 1
  · simp only [e, decide_true, if_true, State.halt] at h; cases h; exact .inr ⟨e, rfl⟩
  · simp only [e, decide_false, Bool.false_eq_true, if_false] at h; cases h; exact .inl ⟨by omega, rfl⟩

/-- A transfer to an even target (rule R141). -/
theorem State.transfer_even {s t : State} {target : Addr} (h : target.toNat % 2 = 0) :
    s.transfer t target = .next { t with pc := target } := by
  have hb : target.getLsbD 0 = false := by simp [BitVec.getLsbD, Nat.testBit_zero, h]
  simp only [State.transfer, hb, Bool.false_eq_true, if_false]

/-- A transfer to an odd target halts (rule R141). -/
theorem State.transfer_odd {s t : State} {target : Addr} (h : target.toNat % 2 = 1) :
    s.transfer t target = .next (s.raiseHalt (.misalignedPC target)) := by
  have hb : target.getLsbD 0 = true := by simp [BitVec.getLsbD, Nat.testBit_zero, h]
  simp only [State.transfer, hb, if_true, State.halt]

/-! ### Bounds (rule R61) -/

/-- The check passes exactly when no byte is above 4095. -/
theorem boundsError_none {addr n : Nat} (h : addr + n ≤ memSize ∨ n = 0) : boundsError addr n = none := by
  unfold boundsError
  have : ¬ (addr + n > memSize ∧ n ≠ 0) := by omega
  simp only [this, if_false]

/-- A data access past 4095 is always reported as 4096. -/
theorem boundsError_at_I (i : Addr) {n : Nat} (h : i.toNat + n > memSize) :
    boundsError i.toNat n = some (.outOfBounds memSize) := by
  have hi := i.isLt
  have hm : memSize = 4096 := rfl
  have hn : i.toNat + n > memSize ∧ n ≠ 0 := by omega
  have hx : max i.toNat memSize = memSize := by omega
  simp only [boundsError, hn, hx, and_self, ne_eq, not_false_eq_true, if_true]

/-- Everything an access at `I` can answer (rules R190, R242). -/
theorem State.accessAtI_cases {s t u : State} {n : Nat} (h : s.accessAtI t n = .next u) :
    ((s.i.toNat + n ≤ memSize ∨ n = 0) ∧ s.finish t 2 = .next u) ∨
    (s.i.toNat + n > memSize ∧ n ≠ 0 ∧ u = s.raiseHalt (.outOfBounds memSize)) := by
  unfold State.accessAtI at h
  by_cases hb : s.i.toNat + n ≤ memSize ∨ n = 0
  · rw [boundsError_none hb] at h; exact .inl ⟨hb, h⟩
  · have hg : s.i.toNat + n > memSize := by omega
    rw [boundsError_at_I s.i hg] at h
    cases h; exact .inr ⟨hg, fun e => hb (.inr e), rfl⟩

/-- An access inside RAM from an instruction that is not the last slot. -/
theorem State.accessAtI_of_le {s t : State} {n : Nat} (hi : s.i.toNat + n ≤ memSize ∨ n = 0)
    (hp : s.pc.toNat + 2 ≤ pcMax) :
    s.accessAtI t n = .next { t with pc := BitVec.ofNat 12 (s.pc.toNat + 2) } := by
  simp only [State.accessAtI, boundsError_none hi, State.finish_of_le hp]

/-! ### The stack (rule R26) -/

/-- Everything `push` can answer. -/
theorem State.push_cases (s : State) (a : Addr) :
    (∃ h : s.sp.val < 16, s.push a =
      .ok { s with stack := s.stack.set s.sp.val a h, sp := ⟨s.sp.val + 1, by omega⟩ }) ∨
    (s.sp.val = 16 ∧ s.push a = .error .stackOverflow) := by
  unfold State.push
  by_cases h : s.sp.val < 16
  · exact .inl ⟨h, by simp only [h, dif_pos]⟩
  · exact .inr ⟨by omega, by simp only [h, dif_neg, not_false_eq_true]⟩

/-- Everything `pop` can answer. -/
theorem State.pop_cases (s : State) :
    (∃ h : 0 < s.sp.val, s.pop =
      .ok (s.stack[s.sp.val - 1]'(by omega), { s with sp := ⟨s.sp.val - 1, by omega⟩ })) ∨
    (s.sp.val = 0 ∧ s.pop = .error .stackUnderflow) := by
  unfold State.pop
  by_cases h : 0 < s.sp.val
  · exact .inl ⟨h, by simp only [h, dif_pos]⟩
  · exact .inr ⟨by omega, by simp only [h, dif_neg, not_false_eq_true]⟩

/-! ### Register groups (rules R195, R196) -/

/-- Storing registers changes memory alone. -/
theorem storeRegs_eq (s0 s : State) (regs : List Reg) :
    ∃ m, storeRegs s0 s regs = { s with mem := m } := by
  induction regs generalizing s with
  | nil => exact ⟨s.mem, rfl⟩
  | cons j rest ih =>
    obtain ⟨m, hm⟩ := ih (s.writeByte (s0.i.toNat + j.val) (s0.readV j))
    exact ⟨m, hm⟩

/-- Storing registers whose addresses are in RAM keeps the canonical form. -/
theorem storeRegs_wf (s0 s : State) (regs : List Reg) (hr : ∀ j ∈ regs, s0.i.toNat + j.val < memSize)
    (h : s.mem.wf = true) : (storeRegs s0 s regs).mem.wf = true := by
  induction regs generalizing s with
  | nil => exact h
  | cons j rest ih =>
    exact ih _ (fun k hk => hr k (List.mem_cons_of_mem _ hk))
      (Memory.wf_write _ (hr j List.mem_cons_self) h)

/-- After the store, each stored register's byte holds it and every other address is as before. -/
theorem storeRegs_readByte (s0 s : State) (regs : List Reg) (a : Nat) :
    (∀ j ∈ regs, a = s0.i.toNat + j.val → (storeRegs s0 s regs).readByte a = s0.readV j) ∧
    ((∀ j ∈ regs, a ≠ s0.i.toNat + j.val) → (storeRegs s0 s regs).readByte a = s.readByte a) := by
  induction regs generalizing s with
  | nil => exact ⟨fun j hj => (List.not_mem_nil hj).elim, fun _ => rfl⟩
  | cons j rest ih =>
    obtain ⟨ih1, ih2⟩ := ih (s.writeByte (s0.i.toNat + j.val) (s0.readV j))
    refine ⟨fun k hk ha => ?_, fun hne => ?_⟩
    · by_cases hin : k ∈ rest
      · exact ih1 k hin ha
      · obtain rfl : k = j := (List.mem_cons.mp hk).resolve_right hin
        rw [storeRegs, ih2 (fun l hl e => hin ?_), State.readByte_writeByte, if_pos ha]
        obtain rfl : k = l := Fin.ext (by omega)
        exact hl
    · rw [storeRegs, ih2 (fun l hl => hne l (List.mem_cons_of_mem _ hl)), State.readByte_writeByte,
        if_neg (hne j List.mem_cons_self)]

/-- Loading registers changes the registers alone. -/
theorem loadRegs_eq (s0 s : State) (regs : List Reg) : ∃ w, loadRegs s0 s regs = { s with v := w } := by
  induction regs generalizing s with
  | nil => exact ⟨s.v, rfl⟩
  | cons j rest ih =>
    obtain ⟨w, hw⟩ := ih (s.writeV j (s0.readByte (s0.i.toNat + j.val)))
    exact ⟨w, hw⟩

/-- After the load, each register of the list holds its byte and every other register what it held. -/
theorem loadRegs_readV (s0 s : State) (regs : List Reg) (k : Reg) :
    (loadRegs s0 s regs).readV k = if k ∈ regs then s0.readByte (s0.i.toNat + k.val) else s.readV k := by
  induction regs generalizing s with
  | nil => simp [loadRegs]
  | cons j rest ih =>
    rw [loadRegs, ih, State.readV_writeV]
    by_cases h1 : k ∈ rest
    · simp [h1]
    · by_cases h2 : k = j <;> simp [h1, h2]

/-- The registers `V0` to `Vx` are those numbered at most `x`. -/
theorem mem_regsThrough (x j : Reg) : j ∈ regsThrough x ↔ j.val ≤ x.val := by
  simp only [regsThrough, List.mem_map, List.mem_range]
  constructor
  · rintro ⟨k, hk, rfl⟩
    have hx := x.isLt
    have : k % 16 = k := Nat.mod_eq_of_lt (by omega)
    simp only [Fin.ofNat, this]; omega
  · intro h
    exact ⟨j.val, by omega, Fin.ext (by simp [Fin.ofNat, Nat.mod_eq_of_lt j.isLt])⟩

/-! ### The framebuffer (rule R29) -/

/-- A pixel reads back what was written, every other pixel what it held. -/
theorem Screen.pixel_setPixel (fb : Screen) (r r' : Fin 32) (c c' : Fin 64) (b : Bool) :
    (fb.setPixel r c b).pixel r' c' = if r' = r ∧ c' = c then b else fb.pixel r' c' := by
  unfold Screen.pixel Screen.setPixel
  by_cases hr : r' = r
  · subst hr
    by_cases hc : c' = c
    · subst hc; simp
    · have : c.val ≠ c'.val := fun e => hc (Fin.ext e.symm)
      simp [hc, this]
  · have : r.val ≠ r'.val := fun e => hr (Fin.ext e.symm)
    simp [hr, this]

@[simp] theorem Screen.pixel_clear (r : Fin 32) (c : Fin 64) : Screen.clear.pixel r c = false := by
  simp [Screen.pixel, Screen.clear]

/-! ### Events -/

/-- A step with nothing pending, while the sequencer runs, is a cycle. -/
theorem step_of_no_pending {s : State} (hp : s.pending = []) (hr : s.run = true) : step s = s.cycle := by
  simp only [step, State.nextEvent, hp, State.issue, hr, if_true]

/-- A step with a pending input delivers it. -/
theorem step_of_pending {s : State} {input : Input} {rest : List Input} (hp : s.pending = input :: rest) :
    step s = { s with pending := rest }.accept input := by
  simp only [step, State.nextEvent, hp]

/-- A running engine whose fetched word decodes executes the instruction (rules R120 to R123). -/
theorem State.cycle_of_decoded {s : State} {w : Word} {i : Instr} (hs : s.status = .running) (hf : s.fetch = .ok w)
    (hd : decodeWord w = .ok i) : s.cycle = exec i s := by
  simp only [State.cycle, hs, hf, hd]

/-- An engine that does not run does nothing in a cycle (rule R126). -/
theorem State.cycle_of_not_running {s : State} (hs : s.status ≠ .running) : s.cycle = .next s := by
  unfold State.cycle
  split
  · exact absurd ‹_› hs
  · rfl
  · rfl

/-- The fetch while `PC <= 4094` (rule R64). -/
theorem State.fetch_of_le {s : State} (h : s.pc.toNat ≤ pcMax) :
    s.fetch = .ok (wordOfBytes (s.readByte s.pc.toNat) (s.readByte (s.pc.toNat + 1))) := by
  have : s.pc.toNat + 2 ≤ memSize := by simp only [pcMax] at h; simp only [memSize]; omega
  simp only [State.fetch, boundsError_none (.inl this)]

/-- A timer counts down by one and stops at 0 (rule R260). -/
theorem countDown_toNat (b : Byte) : (countDown b).toNat = b.toNat - 1 := by
  unfold countDown
  have hb := b.isLt
  split
  · rw [BitVec.toNat_sub]; simp; omega
  · omega

/-- The interleaving issues exactly the requests the two loops issue (rule R265). -/
theorem interleave_counts (order : List Request) (nc nt : Nat) :
    (interleave order nc nt).count .cycle = nc ∧ (interleave order nc nt).count .tick = nt := by
  induction order generalizing nc nt with
  | nil => simp [interleave, List.count_append, List.count_replicate]
  | cons r rest ih =>
    cases r with
    | cycle =>
      cases nc with
      | zero => simpa [interleave] using ih 0 nt
      | succ n => simpa [interleave] using ih n nt
    | tick =>
      cases nt with
      | zero => simpa [interleave] using ih nc 0
      | succ n => simpa [interleave] using ih nc n

end Sys2Proof.Machine
end

