-- ==== Sys2Proof/Laws/Display.lean ====
section
/-!
SUPPORT. What drawing does, pixel by pixel: the loops of rule R211 against the reading of rule R212 that has no loop.
-/
namespace Sys2Proof.Machine

/-- The sprite column that falls on framebuffer column `c`. -/
theorem eq_spriteCol_iff (vx : Byte) {k : Nat} (hk : k < 8) (c : Fin 64) :
    c = spriteCol vx k ↔ (c.val + 64 - vx.toNat % 64) % 64 = k := by
  have := c.isLt
  rw [Fin.ext_iff]
  simp only [spriteCol, Fin.ofNat]
  omega

/-- The sprite row that falls on framebuffer row `r`. -/
theorem eq_spriteRow_iff (vy : Byte) {k : Nat} (hk : k < 16) (r : Fin 32) :
    r = spriteRow vy k ↔ (r.val + 32 - vy.toNat % 32) % 32 = k := by
  have := r.isLt
  rw [Fin.ext_iff]
  simp only [spriteRow, Fin.ofNat]
  omega

/-- Drawing distinct columns of one sprite row inverts the pixels under its bits 1, and a collision is a set pixel there. -/
theorem drawRow_spec (row : Fin 32) (vx sprite : Byte) (cs : List Nat) (hd : cs.Nodup) (h8 : ∀ c ∈ cs, c < 8)
    (acc : Screen × Bool) :
    (∀ r c, (drawRow acc sprite row vx cs).1.pixel r c =
      (acc.1.pixel r c ^^ (decide (r = row) && decide ((c.val + 64 - vx.toNat % 64) % 64 ∈ cs) &&
        sprite.getLsbD (7 - (c.val + 64 - vx.toNat % 64) % 64)))) ∧
    ((drawRow acc sprite row vx cs).2 = true ↔ acc.2 = true ∨ ∃ c, acc.1.pixel row c = true ∧
      (c.val + 64 - vx.toNat % 64) % 64 ∈ cs ∧ sprite.getLsbD (7 - (c.val + 64 - vx.toNat % 64) % 64) = true) := by
  induction cs generalizing acc with
  | nil => simp [drawRow]
  | cons k rest ih =>
    rw [List.nodup_cons] at hd
    have hcol := eq_spriteCol_iff vx (h8 k List.mem_cons_self)
    obtain ⟨ih1, ih2⟩ := ih hd.2 (fun c h => h8 c (List.mem_cons_of_mem _ h))
      (if sprite.getLsbD (7 - k) then drawPixel acc row (spriteCol vx k) else acc)
    simp only [drawRow]
    constructor
    · intro r c
      rw [ih1]
      by_cases hb : sprite.getLsbD (7 - k) = true
      · simp only [hb, if_true, drawPixel, Screen.pixel_setPixel, hcol, List.mem_cons]
        by_cases hr : r = row
        · by_cases he : (c.val + 64 - vx.toNat % 64) % 64 = k
          · subst hr
            rw [he]
            simp [hd.1, hb, ← (hcol c).2 he]
          · simp [hr, he]
        · simp [hr]
      · simp only [hb, List.mem_cons]
        by_cases he : (c.val + 64 - vx.toNat % 64) % 64 = k
        · rw [he]; simp [hb]
        · simp [he]
    · rw [ih2]
      by_cases hb : sprite.getLsbD (7 - k) = true
      · simp only [hb, if_true, drawPixel, Screen.pixel_setPixel, hcol, List.mem_cons, Bool.or_eq_true]
        constructor
        · rintro ((h | h) | ⟨c, h1, h2, h3⟩)
          · exact .inl h
          · exact .inr ⟨_, h, .inl ((hcol _).1 rfl), by rw [(hcol _).1 rfl]; exact hb⟩
          · have hne : ¬ (c.val + 64 - vx.toNat % 64) % 64 = k := fun e => hd.1 (e ▸ h2)
            simp only [hne, and_false, if_false] at h1
            exact .inr ⟨c, h1, .inr h2, h3⟩
        · rintro (h | ⟨c, h1, h2 | h2, h3⟩)
          · exact .inl (.inl h)
          · exact .inl (.inr ((hcol c).2 h2 ▸ h1))
          · have hne : ¬ (c.val + 64 - vx.toNat % 64) % 64 = k := fun e => hd.1 (e ▸ h2)
            exact .inr ⟨c, by simp only [hne, and_false, if_false]; exact h1, h2, h3⟩
      · simp only [hb, List.mem_cons]
        constructor
        · rintro (h | ⟨c, h1, h2, h3⟩)
          · exact .inl h
          · exact .inr ⟨c, h1, .inr h2, h3⟩
        · rintro (h | ⟨c, h1, h2 | h2, h3⟩)
          · exact .inl h
          · rw [h2] at h3; exact absurd h3 hb
          · exact .inr ⟨c, h1, h2, h3⟩

/-- Drawing distinct sprite rows inverts the pixels under their bits 1, and a collision is a set pixel there. -/
theorem drawRows_spec (s : State) (vx vy : Byte) (rs : List Nat) (hnd : rs.Nodup) (hc : ∀ r ∈ rs, r < 16)
    (acc : Screen × Bool) (bit : Fin 32 → Fin 64 → Bool)
    (hbit : ∀ r c, bit r c = (decide ((r.val + 32 - vy.toNat % 32) % 32 ∈ rs) &&
      decide ((c.val + 64 - vx.toNat % 64) % 64 < 8) &&
      (s.readByte (s.i.toNat + (r.val + 32 - vy.toNat % 32) % 32)).getLsbD (7 - (c.val + 64 - vx.toNat % 64) % 64))) :
    (∀ r c, (drawRows s acc vx vy rs).1.pixel r c = (acc.1.pixel r c ^^ bit r c)) ∧
    ((drawRows s acc vx vy rs).2 = true ↔ acc.2 = true ∨ ∃ r c, acc.1.pixel r c = true ∧ bit r c = true) := by
  simp only [hbit]
  clear hbit bit
  induction rs generalizing acc with
  | nil => simp [drawRows]
  | cons k rest ih =>
    rw [List.nodup_cons] at hnd
    have hk := hc k List.mem_cons_self
    obtain ⟨ih1, ih2⟩ := ih hnd.2 (fun c h => hc c (List.mem_cons_of_mem _ h))
      (drawRow acc (s.readByte (s.i.toNat + k)) (spriteRow vy k) vx (List.range 8))
    obtain ⟨d1, d2⟩ := drawRow_spec (spriteRow vy k) vx (s.readByte (s.i.toNat + k)) (List.range 8)
      List.nodup_range (by simp) acc
    have hoff := eq_spriteRow_iff vy hk
    simp only [drawRows]
    simp only [List.mem_range] at d1 d2
    constructor
    · intro r c; rw [ih1, d1]; simp only [hoff, List.mem_cons]
      by_cases he : (r.val + 32 - vy.toNat % 32) % 32 = k
      · rw [he]; simp [hnd.1]
      · simp [he]
    · rw [ih2, d2]; simp only [d1, hoff, List.mem_cons]
      constructor
      · rintro ((h | ⟨c, h1, h2, h3⟩) | ⟨r, c, h1, h2⟩)
        · exact .inl h
        · refine .inr ⟨_, c, h1, ?_⟩; rw [(hoff _).1 rfl]; simp [h2, h3]
        · simp only [Bool.and_eq_true, decide_eq_true_eq] at h2
          have hne : ¬ (r.val + 32 - vy.toNat % 32) % 32 = k := fun e => hnd.1 (e ▸ h2.1.1)
          refine .inr ⟨r, c, ?_, ?_⟩
          · simpa [hne] using h1
          · simp [h2]
      · rintro (h | ⟨r, c, h1, h2⟩)
        · exact .inl (.inl h)
        · simp only [Bool.and_eq_true, decide_eq_true_eq] at h2
          obtain ⟨⟨h2 | h2, h3⟩, h4⟩ := h2
          · refine .inl (.inr ⟨c, ?_, h3, ?_⟩)
            · rw [← (hoff r).2 h2]; exact h1
            · rw [← h2]; exact h4
          · have hne : ¬ (r.val + 32 - vy.toNat % 32) % 32 = k := fun e => hnd.1 (e ▸ h2)
            exact .inr ⟨r, c, by simp [hne, h1], by simp [h2, h3, h4]⟩

/-- A sprite inverts exactly the pixels under its bits 1, and reports a collision exactly when one of them was set. -/
theorem drawSprite_spec (s : State) (vx vy : Byte) (n : Nat) (hn : n ≤ 16) :
    (∀ r c, (s.drawSprite vx vy n).1.pixel r c = (s.fb.pixel r c ^^ s.spriteBit vx vy n r c)) ∧
    ((s.drawSprite vx vy n).2 = true ↔ ∃ r c, s.fb.pixel r c = true ∧ s.spriteBit vx vy n r c = true) := by
  have := drawRows_spec s vx vy (List.range n) List.nodup_range (fun r h => by have := List.mem_range.mp h; omega)
    (s.fb, false) (s.spriteBit vx vy n) (fun r c => by simp only [State.spriteBit, List.mem_range])
  simpa [State.drawSprite] using this

end Sys2Proof.Machine
end

