-- ==== Sys2Proof/Laws/Exec.lean ====
section
/-!
SUPPORT. When an instruction halts: the halts each form raises by rule R240's table, and that it completes otherwise.
-/
namespace Sys2Proof.Machine

/-- What an instruction that raises the halts of `halt?` can answer: that halt, or a next state with the status given. -/
def answers (s : State) (answer : Result) (halt? : Option HaltReason) (status : Status) : Prop :=
  match halt? with
  | some r => answer = s.halt r
  | none => ∃ t, answer = .next t ∧ t.status = status

theorem State.finish_answers (s t : State) (k : Nat) : answers s (s.finish t k) (advanceHalt s k) t.status := by
  unfold answers advanceHalt State.finish
  by_cases h : s.pc.toNat + k > pcMax
  · simp only [h, if_true]
  · simp only [h, if_false]; exact ⟨_, rfl, rfl⟩

theorem State.transfer_answers (s t : State) (target : Addr) :
    answers s (s.transfer t target) (targetHalt target.toNat) t.status := by
  unfold answers targetHalt
  by_cases h : target.toNat % 2 = 1
  · simp only [h, if_true, BitVec.ofNat_toNat, BitVec.setWidth_eq]; exact State.transfer_odd h
  · simp only [h, if_false]; exact ⟨_, State.transfer_even (by omega), rfl⟩

theorem State.accessAtI_answers (s t : State) (n : Nat) : answers s (s.accessAtI t n) (dataHalt s n) t.status := by
  unfold dataHalt
  by_cases h : 0 < n ∧ s.i.toNat + n > memSize
  · simp only [h, and_self, if_true, answers, State.accessAtI, boundsError_at_I s.i h.2]
  · have hn : s.i.toNat + n ≤ memSize ∨ n = 0 := by omega
    simp only [h, if_false, State.accessAtI, boundsError_none hn]
    exact State.finish_answers s t 2

/-- A skip whose condition is decided by a proposition. -/
theorem State.skipIf_answers (s : State) (b : Bool) (p : Prop) [Decidable p] (h : b = decide p) :
    answers s (s.skipIf b) (advanceHalt s (if p then 4 else 2)) s.status := by
  subst h
  have e : (if decide p = true then 4 else 2) = (if p then 4 else 2) := by by_cases p <;> simp [*]
  rw [State.skipIf, e]
  exact State.finish_answers s s _

/-- Every form halts exactly as rule R240's table says; where it does not, `LD Vx,K` waits and every other form leaves
`STATUS`. -/
theorem exec_answers (i : Instr) (s : State) :
    answers s (exec i s) (raisedHalt i s) (match i with | .ldVxK _ => .waitingForKey | _ => s.status) := by
  have eqv : ∀ a b : Byte, (a == b) = decide (a.toNat = b.toNat) := fun a b => by
    rw [Bool.eq_iff_iff]; simp [BitVec.toNat_eq]
  have nev : ∀ a b : Byte, (a != b) = decide (a.toNat ≠ b.toNat) := fun a b => by rw [bne, eqv]; simp
  cases i
  case jpAddr nnn => exact State.transfer_answers s s nnn
  case jpV0Addr nnn =>
    have e : (s.jumpV0Target nnn).toNat = (nnn.toNat + (s.readV 0).toNat) % 4096 := by simp [State.jumpV0Target]
    show answers s _ (targetHalt _) _
    rw [← e]; exact State.transfer_answers s s _
  case callAddr nnn =>
    simp only [raisedHalt, exec, execCallAddr]
    rcases s.push_cases (BitVec.ofNat 12 (s.pc.toNat + 2)) with ⟨h, e⟩ | ⟨h, e⟩
    · have h' : s.sp.val ≠ 16 := by omega
      rw [e]
      by_cases hp : s.pc.toNat + 2 > pcMax
      · simp only [h', hp, if_true, if_false, answers]
      · simp only [h', hp, if_false]; exact State.transfer_answers s _ nnn
    · rw [e]; simp only [h, if_true, answers]
  case ret =>
    simp only [raisedHalt, exec, execRet]
    rcases s.pop_cases with ⟨h, e⟩ | ⟨h, e⟩
    · have h' : s.sp.val ≠ 0 := by omega
      rw [e]; simp only [h', if_false, answers]; exact ⟨_, rfl, rfl⟩
    · rw [e]; simp only [h, if_true, answers]
  case ldVxK x =>
    simp only [raisedHalt, exec, execLdVxK, advanceHalt]
    by_cases hp : s.pc.toNat + 2 > pcMax
    · simp only [hp, if_true, answers]
    · simp only [hp, if_false, answers]; exact ⟨_, rfl, rfl⟩
  case seVxKk x kk => exact State.skipIf_answers s _ _ (eqv _ _)
  case sneVxKk x kk => exact State.skipIf_answers s _ _ (nev _ _)
  case seVxVy x y => exact State.skipIf_answers s _ _ (eqv _ _)
  case sneVxVy x y => exact State.skipIf_answers s _ _ (nev _ _)
  case skpVx x => exact State.skipIf_answers s _ _ (by simp [State.keyDown, keyNumber])
  case sknpVx x =>
    have e : ∀ b : Bool, (if b = true then 2 else 4) = if (!b) = true then 4 else 2 := by decide
    simp only [raisedHalt, e]
    exact State.skipIf_answers s _ _ (by simp [State.keyDown, keyNumber])
  case drwVxVyN x y n => exact State.accessAtI_answers s _ n.val
  case ldBVx x => exact State.accessAtI_answers s _ 3
  case ldMemVx x =>
    obtain ⟨m, hm⟩ := storeRegs_eq s s (regsThrough x)
    have e : ((storeRegs s s (regsThrough x)).bumpI x).status = s.status := by simp [hm]
    exact e ▸ State.accessAtI_answers s _ (x.val + 1)
  case ldVxMem x =>
    obtain ⟨m, hm⟩ := loadRegs_eq s s (regsThrough x)
    have e : ((loadRegs s s (regsThrough x)).bumpI x).status = s.status := by simp [hm]
    exact e ▸ State.accessAtI_answers s _ (x.val + 1)
  all_goals exact State.finish_answers s _ 2

end Sys2Proof.Machine
end

