-- ==== Sys2Proof/Laws/PerInstr.lean ====
section
/-!
SUPPORT. Statements made for every instruction, one lemma a constructor.
-/
namespace Sys2Proof.Laws

/-- The word of an instruction matches the instruction's row of rule R95's map, whatever its operands. -/
def EncodingFitsItsRow.Statement (i : Instr) : Prop := matchesRow (encode i) (opcodeRow i) = true

theorem matchesRow_of_and {w mask want got : Word} (h : w &&& mask = got) (e : got = want) :
    matchesRow w (mask, want) = true := by
  simp [matchesRow, h, e]

theorem EncodingFitsItsRow.cls : EncodingFitsItsRow.Statement .cls := by unfold EncodingFitsItsRow.Statement; decide

theorem EncodingFitsItsRow.ret : EncodingFitsItsRow.Statement .ret := by unfold EncodingFitsItsRow.Statement; decide

theorem EncodingFitsItsRow.jpAddr (nnn : Addr) : EncodingFitsItsRow.Statement (.jpAddr nnn) :=
  matchesRow_of_and (formatA_matches _ _) (by decide)

theorem EncodingFitsItsRow.callAddr (nnn : Addr) : EncodingFitsItsRow.Statement (.callAddr nnn) :=
  matchesRow_of_and (formatA_matches _ _) (by decide)

theorem EncodingFitsItsRow.seVxKk (x : Reg) (kk : Byte) : EncodingFitsItsRow.Statement (.seVxKk x kk) :=
  matchesRow_of_and (formatXK_matches _ _ _) (by decide)

theorem EncodingFitsItsRow.sneVxKk (x : Reg) (kk : Byte) : EncodingFitsItsRow.Statement (.sneVxKk x kk) :=
  matchesRow_of_and (formatXK_matches _ _ _) (by decide)

theorem EncodingFitsItsRow.seVxVy (x y : Reg) : EncodingFitsItsRow.Statement (.seVxVy x y) :=
  matchesRow_of_and (formatXY_matches _ _ _ _) (by decide)

theorem EncodingFitsItsRow.ldVxKk (x : Reg) (kk : Byte) : EncodingFitsItsRow.Statement (.ldVxKk x kk) :=
  matchesRow_of_and (formatXK_matches _ _ _) (by decide)

theorem EncodingFitsItsRow.addVxKk (x : Reg) (kk : Byte) : EncodingFitsItsRow.Statement (.addVxKk x kk) :=
  matchesRow_of_and (formatXK_matches _ _ _) (by decide)

theorem EncodingFitsItsRow.ldVxVy (x y : Reg) : EncodingFitsItsRow.Statement (.ldVxVy x y) :=
  matchesRow_of_and (formatXY_matches _ _ _ _) (by decide)

theorem EncodingFitsItsRow.orVxVy (x y : Reg) : EncodingFitsItsRow.Statement (.orVxVy x y) :=
  matchesRow_of_and (formatXY_matches _ _ _ _) (by decide)

theorem EncodingFitsItsRow.andVxVy (x y : Reg) : EncodingFitsItsRow.Statement (.andVxVy x y) :=
  matchesRow_of_and (formatXY_matches _ _ _ _) (by decide)

theorem EncodingFitsItsRow.xorVxVy (x y : Reg) : EncodingFitsItsRow.Statement (.xorVxVy x y) :=
  matchesRow_of_and (formatXY_matches _ _ _ _) (by decide)

theorem EncodingFitsItsRow.addVxVy (x y : Reg) : EncodingFitsItsRow.Statement (.addVxVy x y) :=
  matchesRow_of_and (formatXY_matches _ _ _ _) (by decide)

theorem EncodingFitsItsRow.subVxVy (x y : Reg) : EncodingFitsItsRow.Statement (.subVxVy x y) :=
  matchesRow_of_and (formatXY_matches _ _ _ _) (by decide)

theorem EncodingFitsItsRow.shrVxVy (x y : Reg) : EncodingFitsItsRow.Statement (.shrVxVy x y) :=
  matchesRow_of_and (formatXY_matches _ _ _ _) (by decide)

theorem EncodingFitsItsRow.subnVxVy (x y : Reg) : EncodingFitsItsRow.Statement (.subnVxVy x y) :=
  matchesRow_of_and (formatXY_matches _ _ _ _) (by decide)

theorem EncodingFitsItsRow.shlVxVy (x y : Reg) : EncodingFitsItsRow.Statement (.shlVxVy x y) :=
  matchesRow_of_and (formatXY_matches _ _ _ _) (by decide)

theorem EncodingFitsItsRow.sneVxVy (x y : Reg) : EncodingFitsItsRow.Statement (.sneVxVy x y) :=
  matchesRow_of_and (formatXY_matches _ _ _ _) (by decide)

theorem EncodingFitsItsRow.ldIAddr (nnn : Addr) : EncodingFitsItsRow.Statement (.ldIAddr nnn) :=
  matchesRow_of_and (formatA_matches _ _) (by decide)

theorem EncodingFitsItsRow.jpV0Addr (nnn : Addr) : EncodingFitsItsRow.Statement (.jpV0Addr nnn) :=
  matchesRow_of_and (formatA_matches _ _) (by decide)

theorem EncodingFitsItsRow.rndVxKk (x : Reg) (kk : Byte) : EncodingFitsItsRow.Statement (.rndVxKk x kk) :=
  matchesRow_of_and (formatXK_matches _ _ _) (by decide)

theorem EncodingFitsItsRow.drwVxVyN (x y : Reg) (n : Fin 16) : EncodingFitsItsRow.Statement (.drwVxVyN x y n) :=
  matchesRow_of_and (formatXYN_matches _ _ _ _) (by decide)

theorem EncodingFitsItsRow.skpVx (x : Reg) : EncodingFitsItsRow.Statement (.skpVx x) :=
  matchesRow_of_and (formatX_matches _ _ _) (by decide)

theorem EncodingFitsItsRow.sknpVx (x : Reg) : EncodingFitsItsRow.Statement (.sknpVx x) :=
  matchesRow_of_and (formatX_matches _ _ _) (by decide)

theorem EncodingFitsItsRow.ldVxDt (x : Reg) : EncodingFitsItsRow.Statement (.ldVxDt x) :=
  matchesRow_of_and (formatX_matches _ _ _) (by decide)

theorem EncodingFitsItsRow.ldVxK (x : Reg) : EncodingFitsItsRow.Statement (.ldVxK x) :=
  matchesRow_of_and (formatX_matches _ _ _) (by decide)

theorem EncodingFitsItsRow.ldDtVx (x : Reg) : EncodingFitsItsRow.Statement (.ldDtVx x) :=
  matchesRow_of_and (formatX_matches _ _ _) (by decide)

theorem EncodingFitsItsRow.ldStVx (x : Reg) : EncodingFitsItsRow.Statement (.ldStVx x) :=
  matchesRow_of_and (formatX_matches _ _ _) (by decide)

theorem EncodingFitsItsRow.addIVx (x : Reg) : EncodingFitsItsRow.Statement (.addIVx x) :=
  matchesRow_of_and (formatX_matches _ _ _) (by decide)

theorem EncodingFitsItsRow.ldFVx (x : Reg) : EncodingFitsItsRow.Statement (.ldFVx x) :=
  matchesRow_of_and (formatX_matches _ _ _) (by decide)

theorem EncodingFitsItsRow.ldBVx (x : Reg) : EncodingFitsItsRow.Statement (.ldBVx x) :=
  matchesRow_of_and (formatX_matches _ _ _) (by decide)

theorem EncodingFitsItsRow.ldMemVx (x : Reg) : EncodingFitsItsRow.Statement (.ldMemVx x) :=
  matchesRow_of_and (formatX_matches _ _ _) (by decide)

theorem EncodingFitsItsRow.ldVxMem (x : Reg) : EncodingFitsItsRow.Statement (.ldVxMem x) :=
  matchesRow_of_and (formatX_matches _ _ _) (by decide)

end Sys2Proof.Laws
end

