-- ==== Sys2Proof/Laws/Sequencer.lean ====
section
/-!
SUPPORT. The sequencer: what a budget keeps, and what a request does (rules R265, R266).
-/
namespace Sys2Proof.Machine

/-- The requests a non-negative budget pays for leave a fraction of one. -/
theorem requestsIn_leaves_fraction {b : Rat} (h : 0 ≤ b) : 0 ≤ b - requestsIn b ∧ b - requestsIn b < 1 := by
  have h0 : 0 ≤ b.floor := by rw [Rat.le_floor_iff]; simpa using h
  have h1 : (b.floor : Rat) ≤ b := Rat.floor_le b
  have h2 : b < (b.floor : Rat) + 1 := by simpa using Rat.lt_floor_add_one b
  have hc : ((b.floor.toNat : Nat) : Rat) = (b.floor : Rat) := by exact_mod_cast Int.toNat_of_nonneg h0
  rw [requestsIn, hc]
  constructor <;> linarith

/-- A budget never shrinks while it grows. -/
theorem grownBudget_nonneg {b dt rate : Rat} (hb : 0 ≤ b) (hr : 0 ≤ rate) : 0 ≤ grownBudget b dt rate := by
  unfold grownBudget
  split
  · have := mul_nonneg ‹0 ≤ dt› hr
    linarith
  · simpa using hb

/-- A paused sequencer issues nothing. -/
theorem State.issue_of_paused {s : State} (h : s.run = false) (r : Request) : s.issue r = .next s := by
  simp only [State.issue, h, Bool.false_eq_true, if_false]

/-- A running sequencer's cycle request is a cycle. -/
theorem State.issue_cycle {s : State} (h : s.run = true) : s.issue .cycle = s.cycle := by
  simp only [State.issue, h, if_true]

/-- A running sequencer's tick request is a tick. -/
theorem State.issue_tick {s : State} (h : s.run = true) : s.issue .tick = .next s.tick := by
  simp only [State.issue, h, if_true]

/-- Everything a cycle can answer: nothing, the halt of a failed fetch or of an illegal word, or what the instruction
fetched answers (rules R120 to R123, R126). -/
theorem State.cycle_cases {s t : State} (h : s.cycle = .next t) :
    (s.status ≠ .running ∧ t = s) ∨ (s.status = .running ∧ ∃ r, t = s.raiseHalt r) ∨
    (s.status = .running ∧ ∃ w i, s.fetch = .ok w ∧ decodeWord w = .ok i ∧ exec i s = .next t) := by
  by_cases hs : s.status = .running
  · simp only [State.cycle, hs] at h
    split at h
    · cases h; exact .inr (.inl ⟨hs, _, rfl⟩)
    · split at h
      · cases h; exact .inr (.inl ⟨hs, _, rfl⟩)
      · exact .inr (.inr ⟨hs, _, _, ‹_›, ‹_›, h⟩)
  · rw [State.cycle_of_not_running hs] at h
    cases h; exact .inl ⟨hs, rfl⟩

end Sys2Proof.Machine
end

