-- ==== Sys2Proof/Tests/Slice0.lean ====
section
/-!
SUPPORT. The model's own tests. Expected results are those of 95_test_vectors.md (its vector's name stands in each comment)
or worked by hand from the rule named; none is the model's answer pasted back. The last part gives, for every statement
with hypotheses, a concrete state that meets them.
-/
namespace Sys2Proof.Tests
open Sys2Proof.Machine

/-! ### Helpers -/

/-- The reset state at another program counter. -/
def atPc (pc : Addr) : State := { State.reset with pc := pc }

/-- The reset state with some registers set. -/
def withRegs (regs : List (Reg × Byte)) : State := regs.foldl (fun s p => s.writeV p.1 p.2) State.reset

/-- The state after one step that runs `word` at the program counter. -/
def after (s : State) (word : Nat) : State :=
  match step (s.withFetchWord 16 word) with
  | .next t => t
  | .fault _ => s
  | .refused _ => s

/-- The state after one step. -/
def afterStep (s : State) : State :=
  match step s with
  | .next t => t
  | .fault _ => s
  | .refused _ => s

/-- The values of some pixels. -/
def sample (fb : Screen) (pixels : List (Fin 32 × Fin 64)) : List Bool := pixels.map fun p => fb.pixel p.1 p.2

/-! ### Ill-formed terms that the checks refuse (rules R9, R285) -/

/-- 0x1B0 is the highest legal font base; 0x1B1 puts glyph byte 79 at 0x200. -/
theorem test_wf_font_base_limit :
    Config.wf { Config.initial with fontBase := 0x1B0#12 } = true ∧
    Config.wf { Config.initial with fontBase := 0x1B1#12 } = false := by decide +kernel

/-- `IPS` is positive. -/
theorem test_wf_ips_zero_refused : Config.wf { Config.initial with ips := 0 } = false := by decide +kernel
theorem test_wf_ips_negative_refused : Config.wf { Config.initial with ips := -1 } = false := by decide +kernel

/-- All four pairs of quirk flags are accepted (rule R252). -/
theorem test_wf_quirks_accepted : ∀ a b : Bool,
    Config.wf { Config.initial with quirkShiftUsesVy := a, quirkLoadStoreIncI := b } = true := by decide +kernel

/-- An image of 3585 bytes is refused, one of 3584 is not. -/
theorem test_wf_image_limit :
    programFits (List.replicate 3584 0#8) = true ∧ programFits (List.replicate 3585 0#8) = false := by
  constructor
  · exact decide_eq_true (by rw [List.length_replicate]; decide)
  · exact decide_eq_false (by rw [List.length_replicate]; decide)

/-! ### Decoding: words written out from rules R91, R92, R95 (the values of 95_test_vectors.md 2.1) -/

theorem test_decode_cls : decodeWord 0b0000000011100000#16 = .ok .cls := by decide
theorem test_decode_ret : decodeWord 0b0000000011101110#16 = .ok .ret := by decide
theorem test_decode_jpAddr : decodeWord 0b0001101010111100#16 = .ok (.jpAddr 0xABC#12) := by decide
theorem test_decode_callAddr : decodeWord 0b0010101010111100#16 = .ok (.callAddr 0xABC#12) := by decide
theorem test_decode_seVxKk : decodeWord 0b0011101001111111#16 = .ok (.seVxKk 10 0x7F#8) := by decide
theorem test_decode_sneVxKk : decodeWord 0b0100101001111111#16 = .ok (.sneVxKk 10 0x7F#8) := by decide
theorem test_decode_seVxVy : decodeWord 0b0101101010110000#16 = .ok (.seVxVy 10 11) := by decide
theorem test_decode_ldVxKk : decodeWord 0b0110101001111111#16 = .ok (.ldVxKk 10 0x7F#8) := by decide
theorem test_decode_addVxKk : decodeWord 0b0111101001111111#16 = .ok (.addVxKk 10 0x7F#8) := by decide
theorem test_decode_ldVxVy : decodeWord 0b1000101010110000#16 = .ok (.ldVxVy 10 11) := by decide
theorem test_decode_orVxVy : decodeWord 0b1000101010110001#16 = .ok (.orVxVy 10 11) := by decide
theorem test_decode_andVxVy : decodeWord 0b1000101010110010#16 = .ok (.andVxVy 10 11) := by decide
theorem test_decode_xorVxVy : decodeWord 0b1000101010110011#16 = .ok (.xorVxVy 10 11) := by decide
theorem test_decode_addVxVy : decodeWord 0b1000101010110100#16 = .ok (.addVxVy 10 11) := by decide
theorem test_decode_subVxVy : decodeWord 0b1000101010110101#16 = .ok (.subVxVy 10 11) := by decide
theorem test_decode_shrVxVy : decodeWord 0b1000101010110110#16 = .ok (.shrVxVy 10 11) := by decide
theorem test_decode_subnVxVy : decodeWord 0b1000101010110111#16 = .ok (.subnVxVy 10 11) := by decide
theorem test_decode_shlVxVy : decodeWord 0b1000101010111110#16 = .ok (.shlVxVy 10 11) := by decide
theorem test_decode_sneVxVy : decodeWord 0b1001101010110000#16 = .ok (.sneVxVy 10 11) := by decide
theorem test_decode_ldIAddr : decodeWord 0b1010101010111100#16 = .ok (.ldIAddr 0xABC#12) := by decide
theorem test_decode_jpV0Addr : decodeWord 0b1011101010111100#16 = .ok (.jpV0Addr 0xABC#12) := by decide
theorem test_decode_rndVxKk : decodeWord 0b1100101001111111#16 = .ok (.rndVxKk 10 0x7F#8) := by decide
theorem test_decode_drwVxVyN : decodeWord 0b1101101010110101#16 = .ok (.drwVxVyN 10 11 5) := by decide
theorem test_decode_skpVx : decodeWord 0b1110101010011110#16 = .ok (.skpVx 10) := by decide
theorem test_decode_sknpVx : decodeWord 0b1110101010100001#16 = .ok (.sknpVx 10) := by decide
theorem test_decode_ldVxDt : decodeWord 0b1111101000000111#16 = .ok (.ldVxDt 10) := by decide
theorem test_decode_ldVxK : decodeWord 0b1111101000001010#16 = .ok (.ldVxK 10) := by decide
theorem test_decode_ldDtVx : decodeWord 0b1111101000010101#16 = .ok (.ldDtVx 10) := by decide
theorem test_decode_ldStVx : decodeWord 0b1111101000011000#16 = .ok (.ldStVx 10) := by decide
theorem test_decode_addIVx : decodeWord 0b1111101000011110#16 = .ok (.addIVx 10) := by decide
theorem test_decode_ldFVx : decodeWord 0b1111101000101001#16 = .ok (.ldFVx 10) := by decide
theorem test_decode_ldBVx : decodeWord 0b1111101000110011#16 = .ok (.ldBVx 10) := by decide
theorem test_decode_ldMemVx : decodeWord 0b1111101001010101#16 = .ok (.ldMemVx 10) := by decide
theorem test_decode_ldVxMem : decodeWord 0b1111101001100101#16 = .ok (.ldVxMem 10) := by decide

/-- Whether a word is rejected under its own name. -/
def rejected (w : Word) : Bool :=
  match decodeWord w with
  | .error (.unknownOpcode v) => v == w
  | .error .truncated => false
  | .ok _ => false

/-- The illegal words of 95_test_vectors.md 2.1. -/
theorem test_decode_illegal_words :
    [0x0000#16, 0x00E1#16, 0x00EF#16, 0x00FF#16, 0x0123#16, 0x0FFF#16, 0x5001#16, 0x500F#16, 0x8008#16, 0x800D#16,
     0x800F#16, 0x9001#16, 0xE000#16, 0xE09F#16, 0xE1A0#16, 0xF000#16, 0xF01F#16, 0xF075#16, 0xF085#16, 0xFFFF#16].all
      rejected = true := by decide

/-- Too few bytes for an instruction. -/
theorem test_decode_truncated : decodeBytes [0x60#8] = .error .truncated := by decide

/-- The host's table words: high byte first (S11). -/
theorem test_decodeTableWord : decodeTableWord 16 0x6105 = some (.ldVxKk 1 0x05#8) ∧ decodeTableWord 16 0x0000 = none := by
  decide

/-- The table's rows, and none of another number: 34 (rule R95). -/
theorem test_opcode_rows_count : opcodeRows.length = 34 := by decide

/-- No word matches two rows: any two rows differ under their common mask (rule R94). -/
theorem test_opcode_rows_disjoint :
    opcodeRows.Pairwise (fun a b => a.1 &&& b.1 &&& a.2 ≠ a.1 &&& b.1 &&& b.2) := by decide

/-! ### Control transfer (vectors T) -/

/-- T5, T2. -/
theorem test_jp : (after State.reset 0x1FFE).pc = 0xFFE#12 ∧ (after State.reset 0x1200).pc = 0x200#12 := by decide
/-- T3. -/
theorem test_jp_odd : (after State.reset 0x1201).status = .halted (.misalignedPC 0x201#12) ∧
    (after State.reset 0x1201).pc = 0x200#12 := by decide
/-- T8. -/
theorem test_call : (after { State.reset with sp := 15 } 0x2300).stack[15] = 0x202#12 ∧
    (after { State.reset with sp := 15 } 0x2300).sp = 16 ∧ (after { State.reset with sp := 15 } 0x2300).pc = 0x300#12 := by
  decide
/-- T11, T13. -/
theorem test_call_priority :
    (after { State.reset with sp := 16 } 0x2301).status = .halted .stackOverflow ∧
    (after (atPc 0xFFE#12) 0x2301).status = .halted (.outOfBounds 4096) := by decide
/-- T16. -/
theorem test_ret : (after { atPc 0xFFE#12 with sp := 2, stack := State.reset.stack.set 1 0x2A0#12 } 0x00EE).pc = 0x2A0#12 ∧
    (after { atPc 0xFFE#12 with sp := 2, stack := State.reset.stack.set 1 0x2A0#12 } 0x00EE).sp = 1 := by decide
/-- T15. -/
theorem test_ret_underflow : (after State.reset 0x00EE).status = .halted .stackUnderflow := by decide
/-- T21, T20. -/
theorem test_jpV0 : (after (withRegs [(0, 0xFF#8)]) 0xBFFF).pc = 0x0FE#12 ∧
    (after (withRegs [(0, 1#8)]) 0xB301).pc = 0x302#12 := by decide
/-- T19. -/
theorem test_jpV0_odd : (after (withRegs [(0, 1#8)]) 0xB300).status = .halted (.misalignedPC 0x301#12) := by decide
/-- T22, T23. -/
theorem test_se_kk : (after (withRegs [(3, 0x2A#8)]) 0x332A).pc = 0x204#12 ∧
    (after (withRegs [(3, 0x2B#8)]) 0x332A).pc = 0x202#12 := by decide
/-- T24, T25. -/
theorem test_sne_kk : (after (withRegs [(3, 0x2A#8)]) 0x432A).pc = 0x202#12 ∧
    (after State.reset 0x432A).pc = 0x204#12 := by decide
/-- T27, T28. -/
theorem test_se_reg : (after (withRegs [(0, 5#8), (1, 5#8)]) 0x5010).pc = 0x204#12 ∧
    (after (withRegs [(0, 5#8), (1, 6#8)]) 0x5010).pc = 0x202#12 := by decide
/-- T30, T31. -/
theorem test_sne_reg : (after (withRegs [(0, 5#8), (1, 6#8)]) 0x9010).pc = 0x204#12 ∧
    (after (withRegs [(0, 5#8), (1, 5#8)]) 0x9010).pc = 0x202#12 := by decide
/-- T33, T34, T35, T36. -/
theorem test_skip_at_the_end :
    (after (atPc 0xFFC#12) 0x3000).status = .halted (.outOfBounds 4096) ∧ (after (atPc 0xFFC#12) 0x3001).pc = 0xFFE#12 ∧
    (after (atPc 0xFFE#12) 0x3000).status = .halted (.outOfBounds 4098) ∧
    (after (atPc 0xFFE#12) 0x3001).status = .halted (.outOfBounds 4096) := by decide

/-! ### Load, arithmetic, logic, shift, random (vectors A) -/

/-- A2, A48. -/
theorem test_ld_kk : (after State.reset 0x6F07).readV 15 = 7#8 ∧
    (after (atPc 0xFFE#12) 0x6005).status = .halted (.outOfBounds 4096) ∧ (after (atPc 0xFFE#12) 0x6005).readV 0 = 0#8 := by
  decide
/-- A3. -/
theorem test_add_kk_no_carry : (after (withRegs [(0, 0xFF#8), (15, 1#8)]) 0x7001).readV 0 = 0#8 ∧
    (after (withRegs [(0, 0xFF#8), (15, 1#8)]) 0x7001).readV 15 = 1#8 := by decide
/-- A6. -/
theorem test_ld_reg : (after (withRegs [(15, 9#8)]) 0x80F0).readV 0 = 9#8 := by decide
/-- A8. -/
theorem test_or : (after (withRegs [(1, 0x0F#8), (2, 0xF0#8), (15, 1#8)]) 0x8121).readV 1 = 0xFF#8 ∧
    (after (withRegs [(1, 0x0F#8), (2, 0xF0#8), (15, 1#8)]) 0x8121).readV 15 = 1#8 := by decide
/-- A9. -/
theorem test_and : (after (withRegs [(1, 0x3C#8), (2, 0x0F#8), (15, 1#8)]) 0x8122).readV 1 = 0x0C#8 ∧
    (after (withRegs [(1, 0x3C#8), (2, 0x0F#8), (15, 1#8)]) 0x8122).readV 15 = 1#8 := by decide
/-- A10. -/
theorem test_xor : (after (withRegs [(1, 0xFF#8), (2, 0x0F#8), (15, 1#8)]) 0x8123).readV 1 = 0xF0#8 ∧
    (after (withRegs [(1, 0xFF#8), (2, 0x0F#8), (15, 1#8)]) 0x8123).readV 15 = 1#8 := by decide
/-- A12. -/
theorem test_add_carry : (after (withRegs [(0, 200#8), (1, 100#8)]) 0x8014).readV 0 = 44#8 ∧
    (after (withRegs [(0, 200#8), (1, 100#8)]) 0x8014).readV 15 = 1#8 := by decide
/-- A17, A18. -/
theorem test_add_vf_operand : (after (withRegs [(15, 1#8), (1, 2#8)]) 0x8F14).readV 15 = 0#8 ∧
    (after (withRegs [(0, 0xFF#8), (15, 1#8)]) 0x80F4).readV 0 = 0#8 := by decide
/-- A20. -/
theorem test_sub_borrow : (after (withRegs [(0, 5#8), (1, 10#8)]) 0x8015).readV 0 = 0xFB#8 ∧
    (after (withRegs [(0, 5#8), (1, 10#8)]) 0x8015).readV 15 = 0#8 := by decide
/-- A22. -/
theorem test_sub_equal : (after (withRegs [(0, 7#8), (1, 7#8)]) 0x8015).readV 15 = 1#8 := by decide
/-- A26. -/
theorem test_subn : (after (withRegs [(0, 5#8), (1, 10#8)]) 0x8017).readV 0 = 5#8 ∧
    (after (withRegs [(0, 5#8), (1, 10#8)]) 0x8017).readV 15 = 1#8 := by decide
/-- A29. -/
theorem test_subn_vf : (after (withRegs [(15, 3#8), (1, 5#8)]) 0x8F17).readV 15 = 1#8 := by decide
/-- A38. -/
theorem test_shr_quirk_off : (after (withRegs [(0, 0xAA#8), (1, 5#8)]) 0x8016).readV 0 = 0x55#8 ∧
    (after (withRegs [(0, 0xAA#8), (1, 5#8)]) 0x8016).readV 15 = 0#8 := by decide
/-- A39. -/
theorem test_shr_quirk_on :
    (after { withRegs [(0, 0xAA#8), (1, 5#8)] with config := { Config.initial with quirkShiftUsesVy := true } } 0x8016).readV 0
      = 2#8 ∧
    (after { withRegs [(0, 0xAA#8), (1, 5#8)] with config := { Config.initial with quirkShiftUsesVy := true } } 0x8016).readV 15
      = 1#8 := by decide
/-- A36, A37. -/
theorem test_shl_quirk_off : (after (withRegs [(0, 0x7F#8), (15, 1#8)]) 0x800E).readV 0 = 0xFE#8 ∧
    (after (withRegs [(0, 0x7F#8), (15, 1#8)]) 0x800E).readV 15 = 0#8 ∧
    (after (withRegs [(15, 0xC0#8)]) 0x8F0E).readV 15 = 1#8 := by decide
/-- A40. -/
theorem test_shl_quirk_on :
    (after { withRegs [(0, 0xAA#8), (1, 0x81#8)] with config := { Config.initial with quirkShiftUsesVy := true } } 0x801E).readV
      0 = 2#8 := by decide
/-- A46, and the draw is counted. -/
theorem test_rnd_masked : (after (withRegs [(3, 0x55#8)]) 0xC300).readV 3 = 0#8 ∧
    (after (withRegs [(3, 0x55#8)]) 0xC300).rndDraws = 1 ∧ (after (withRegs [(3, 0x55#8)]) 0xC300).pc = 0x202#12 := by
  refine ⟨?_, by decide, by decide⟩
  show Config.randomByte 0 &&& 0#8 = 0#8
  exact BitVec.and_zero

/-! ### Address register and memory (vectors M) -/

/-- M2. -/
theorem test_ld_i : (after State.reset 0xAFFF).i = 0xFFF#12 := by decide
/-- M4. -/
theorem test_add_i_wraps : (after { withRegs [(0, 1#8)] with i := 0xFFF#12 } 0xF01E).i = 0#12 ∧
    (after { withRegs [(0, 1#8)] with i := 0xFFF#12 } 0xF01E).readV 15 = 0#8 := by decide
/-- M8. -/
theorem test_ld_f : (after (withRegs [(0, 0x1A#8)]) 0xF029).i = 0x032#12 := by decide
/-- M12. -/
theorem test_ld_f_base :
    (after { withRegs [(0, 0x0F#8)] with config := { Config.initial with fontBase := 0x1B0#12 } } 0xF029).i = 0x1FB#12 := by
  decide
/-- M13. -/
theorem test_bcd : [0x300, 0x301, 0x302].map (after { withRegs [(0, 156#8)] with i := 0x300#12 } 0xF033).readByte
    = [1#8, 5#8, 6#8] := by decide
/-- M19. -/
theorem test_bcd_out_of_bounds :
    after { withRegs [(0, 123#8)] with i := 0xFFE#12 } 0xF033
      = { { withRegs [(0, 123#8)] with i := 0xFFE#12 }.withFetchWord 16 0xF033 with
          status := .halted (.outOfBounds 4096) } := by decide
/-- M22. -/
theorem test_store_quirk_on :
    [0x300, 0x301, 0x302].map (after { withRegs [(0, 1#8), (1, 2#8), (2, 3#8), (3, 4#8)] with
      i := 0x300#12, config := { Config.initial with quirkLoadStoreIncI := true } } 0xF255).readByte = [1#8, 2#8, 3#8] ∧
    (after { withRegs [(0, 1#8), (1, 2#8), (2, 3#8), (3, 4#8)] with
      i := 0x300#12, config := { Config.initial with quirkLoadStoreIncI := true } } 0xF255).i = 0x303#12 := by decide
/-- M25. -/
theorem test_store_out_of_bounds :
    after { withRegs [(0, 0xAB#8), (1, 0xCD#8)] with i := 0xFFF#12 } 0xF155
      = { { withRegs [(0, 0xAB#8), (1, 0xCD#8)] with i := 0xFFF#12 }.withFetchWord 16 0xF155 with
          status := .halted (.outOfBounds 4096) } := by decide
/-- M28. -/
theorem test_load :
    [0, 1, 2, 3].map (after { withRegs [(3, 0x55#8)] with
      i := 0x300#12, mem := [(0x300, 9#8), (0x301, 8#8), (0x302, 7#8), (0x303, 6#8)] } 0xF265).readV
      = [9#8, 8#8, 7#8, 0x55#8] := by decide
/-- M30. -/
theorem test_load_quirk_on :
    (after { State.reset with i := 0xFFF#12, mem := [(0xFFF, 0x5A#8)],
                              config := { Config.initial with quirkLoadStoreIncI := true } } 0xF065).i = 0#12 := by decide
/-- P6: the two bytes a store puts over the next instruction are what the next step fetches: `JP 0x208`. -/
theorem test_store_then_fetch :
    (after { withRegs [(0, 0x12#8), (1, 0x08#8)] with i := 0x208#12, pc := 0x206#12 } 0xF155).fetch = .ok 0x1208#16 := by
  decide

/-! ### Display (vectors D) -/

/-- D1: the eight pixels, and those beside them. -/
theorem test_draw_wraps_columns :
    sample (after { withRegs [(0, 60#8)] with i := 0x300#12, mem := [(0x300, 0xFF#8)] } 0xD011).fb
      [(0, 59), (0, 60), (0, 61), (0, 62), (0, 63), (0, 0), (0, 1), (0, 2), (0, 3), (0, 4), (1, 0), (1, 63)]
      = [false, true, true, true, true, true, true, true, true, false, false, false] ∧
    (after { withRegs [(0, 60#8)] with i := 0x300#12, mem := [(0x300, 0xFF#8)] } 0xD011).readV 15 = 0#8 := by decide
/-- D11, D10. -/
theorem test_draw_collision_and_rows :
    sample (after { State.reset with i := 0x300#12, mem := [(0x300, 0xC0#8)],
                                     fb := Screen.clear.setPixel 0 1 true } 0xD001).fb [(0, 0), (0, 1), (0, 2)] = [true, false, false] ∧
    (after { State.reset with i := 0x300#12, mem := [(0x300, 0xC0#8)],
                              fb := Screen.clear.setPixel 0 1 true } 0xD001).readV 15 = 1#8 ∧
    sample (after { withRegs [(1, 31#8)] with i := 0x300#12, mem := [(0x300, 0xC0#8), (0x301, 0x03#8)] } 0xD012).fb
      [(31, 0), (31, 1), (31, 6), (0, 0), (0, 5), (0, 6), (0, 7)] = [true, true, false, false, false, true, true] := by decide
/-- D14, S4. -/
theorem test_cls :
    sample (after { withRegs [(15, 1#8)] with fb := Screen.clear.setPixel 3 3 true } 0x00E0).fb [(3, 3)] = [false] ∧
    (after { withRegs [(15, 1#8)] with fb := Screen.clear.setPixel 3 3 true } 0x00E0).readV 15 = 1#8 := by decide

/-! ### Keypad, timers, reset (vectors K, Z) -/

/-- K5, K2. -/
theorem test_skp : (after { withRegs [(1, 0x15#8)] with keys := 0x0020#16 } 0xE19E).pc = 0x204#12 ∧
    (after (withRegs [(1, 5#8)]) 0xE19E).pc = 0x202#12 := by decide
/-- K6, K4. -/
theorem test_sknp : (after { withRegs [(1, 0xF5#8)] with keys := 0x0020#16 } 0xE1A1).pc = 0x202#12 ∧
    (after (withRegs [(1, 5#8)]) 0xE1A1).pc = 0x204#12 := by decide
/-- K8. -/
theorem test_key_wait : (after { State.reset with keys := 0x0080#16 } 0xF30A).status = .waitingForKey ∧
    (after { State.reset with keys := 0x0080#16 } 0xF30A).waitX = 3 ∧
    (after { State.reset with keys := 0x0080#16 } 0xF30A).pc = 0x200#12 := by decide
/-- K12. -/
theorem test_key_wait_last_slot : (after (atPc 0xFFE#12) 0xF30A).status = .halted (.outOfBounds 4096) := by decide
/-- K10. -/
theorem test_key_press :
    afterStep { State.reset with status := .waitingForKey, waitX := 3, pending := [.keyPress 0xB#4] }
      = { State.reset.writeV 3 0x0B#8 with waitX := 3, pc := 0x202#12 } := by decide
/-- K14. -/
theorem test_ld_vx_dt : (after { State.reset with dt := 0x3C#8 } 0xF207).readV 2 = 0x3C#8 := by decide
/-- K15. -/
theorem test_ld_dt_vx : (after (withRegs [(2, 60#8)]) 0xF215).dt = 60#8 := by decide
/-- K16. -/
theorem test_ld_st_vx : (after (withRegs [(0, 2#8)]) 0xF018).st = 2#8 ∧
    (after (withRegs [(0, 2#8)]) 0xF018).soundOn = true := by decide
/-- K21: a tick in `Halted`; and timers stop at 0 (S12). -/
theorem test_tick :
    afterStep { State.reset with status := .halted (.unknownOpcode 0#16), dt := 0#8, st := 255#8, pending := [.request .tick] }
      = { State.reset with status := .halted (.unknownOpcode 0#16), dt := 0#8, st := 254#8 } := by decide
/-- Z1. -/
theorem test_reset :
    afterStep { withRegs [(3, 7#8)] with
        i := 0x123#12, pc := 0x456#12, sp := 2, dt := 5#8, st := 6#8, fb := Screen.clear.setPixel 1 1 true,
        stack := (State.reset.stack.set 0 0x202#12).set 1 0x300#12, status := .halted .stackUnderflow,
        mem := [(0x300, 0x99#8)], pending := [.reset] }
      = { State.reset with mem := [(0x300, 0x99#8)] } := by decide
/-- S14: an illegal word halts with `PC` kept, and the outputs show it (P5c). -/
theorem test_illegal_word : (after State.reset 0x0000).status = .halted (.unknownOpcode 0#16) ∧
    (after State.reset 0x0000).pc = 0x200#12 ∧ (after State.reset 0x0000).haltCode = 1#3 := by decide
/-- P5b's output values. -/
theorem test_halt_outputs : (after State.reset 0x1201).haltCode = 5#3 ∧ (after State.reset 0x1201).haltInfo = 0x201#16 ∧
    (after State.reset 0x1201).statusCode = 2#2 := by decide
/-- Rule R265 by hand: half a second at 3 instructions a second from empty budgets pays for one cycle and thirty ticks, and
half a cycle is left. -/
theorem test_elapse_pending :
    interleave [.tick, .cycle] (requestsIn (grownBudget 0 (1 / 2) 3)) (requestsIn (grownBudget 0 (1 / 2) tickHz))
      = [.tick, .cycle] ++ List.replicate 29 .tick := by decide +kernel
theorem test_elapse_budget :
    (afterStep { State.reset with
        config := { Config.initial with ips := 3 }, pending := [.elapse (1 / 2) [.tick, .cycle]] }).cycleBudget
      = 1 / 2 := by decide +kernel
/-- The loader's font: glyph A is F0 90 F0 90 90 at 0x032 (P3). -/
theorem test_load_font : [0x032, 0x033, 0x034, 0x035, 0x036].map State.reset.loadFont.readByte
    = [0xF0#8, 0x90#8, 0xF0#8, 0x90#8, 0x90#8] := by decide
/-- A word of the host placed where the next step fetches, from a halted, paused state. -/
theorem test_withFetchWord :
    afterStep ({ atPc 0x300#12 with status := .halted .stackOverflow, run := false, pending := [.reset] }.withFetchWord 16 0xA2F0)
      = { { atPc 0x302#12 with i := 0x2F0#12 } with mem := [(0x300, 0xA2#8), (0x301, 0xF0#8)] } := by decide

/-! ### Witnesses: a concrete state and operands that meet every hypothesis of a statement, at the ends of the ranges -/

/-- The state that runs `word` next at `pc`. -/
def loaded (pc : Addr) (word : Nat) : State := (atPc pc).withFetchWord 16 word

/-- Whether an answer is a given next state. -/
def nextIs (r : Result) (t : State) : Bool :=
  match r with
  | .next u => decide (u = t)
  | .fault _ => false
  | .refused _ => false

theorem next_of_nextIs {r : Result} {t : State} (h : nextIs r t = true) : r = .next t := by
  cases r with
  | next u => exact congrArg Host.Outcome.next (of_decide_eq_true h)
  | fault _ => cases h
  | refused _ => cases h

/-- A state with one input pending. -/
def given (input : Input) : State := { State.reset with pending := [input] }

theorem witness_EncodeOfDecodeIsTheWord : decodeWord 0x8AB6#16 = .ok (.shrVxVy 10 11) := by decide

theorem witness_DecodeAcceptsExactlyTheMap :
    (0xF00F#16, 0x800E#16) ∈ opcodeRows ∧ 0x8ABE#16 &&& 0xF00F#16 = 0x800E#16 ∧
    opcodeRows.all (fun row => decide (0x800F#16 &&& row.1 ≠ row.2)) = true := by decide

theorem witness_DecodeBytesReadsBigEndian :
    (0xDA#8).toNat * 256 + (0xB5#8).toNat = (encode (.drwVxVyN 10 11 5)).toNat := by decide

theorem witness_StepRunsTheDecodedInstruction :
    (loaded 0xFFE#12 0x1200).readyToExecute ∧ decodeWord (loaded 0xFFE#12 0x1200).wordAtPc = .ok (.jpAddr 0x200#12) :=
  ⟨⟨rfl, rfl, rfl, by decide⟩, by decide⟩

theorem witness_IllegalWordHaltsCarryingIt :
    ((loaded 0xFFE#12 0xF0FF).readyToExecute ∧ ∀ i, decodeWord (loaded 0xFFE#12 0xF0FF).wordAtPc ≠ .ok i) ∧
    ((loaded 0#12 0).readyToExecute ∧ (loaded 0#12 0).readByte (loaded 0#12 0).pc.toNat = 0#8 ∧
      (loaded 0#12 0).readByte ((loaded 0#12 0).pc.toNat + 1) = 0#8) := by
  have h : decodeWord (loaded 0xFFE#12 0xF0FF).wordAtPc = .error (.unknownOpcode 0xF0FF#16) := by decide
  exact ⟨⟨⟨rfl, rfl, rfl, by decide⟩, fun i e => by rw [h] at e; cases e⟩, ⟨⟨rfl, rfl, rfl, by decide⟩, by decide, by decide⟩⟩

theorem witness_CycleChangesNothingUnlessRunning :
    State.status { State.reset with status := .waitingForKey } ≠ .running ∧
    State.status { State.reset with status := .halted .stackOverflow } ≠ .running := by decide

theorem witness_HaltingInstructionHasNoOtherEffect :
    State.reset.status = .running ∧
      exec .ret State.reset = .next { State.reset with status := .halted .stackUnderflow } :=
  ⟨rfl, next_of_nextIs (by decide)⟩

theorem witness_NewPcOfEveryForm :
    State.status (atPc 0xFFC#12) = .running ∧ exec .cls (atPc 0xFFC#12) = .next (atPc 0xFFE#12) ∧
      ¬ (atPc 0xFFE#12).isHalted :=
  ⟨rfl, next_of_nextIs (by decide), fun ⟨_, h⟩ => by cases h⟩

/-- One witness for each clause. -/
theorem witness_LastSlotHaltsAllButTransfers :
    ((atPc 0xFFE#12).pc = 0xFFE#12 ∧ skipCondition .cls (atPc 0xFFE#12) = none ∧ Instr.cls ≠ .ret ∧
      (∀ a, Instr.cls ≠ .jpAddr a) ∧ (∀ a, Instr.cls ≠ .callAddr a) ∧ ∀ a, Instr.cls ≠ .jpV0Addr a) ∧
    skipCondition (.seVxKk 0 0#8) (atPc 0xFFE#12) = some true ∧ skipCondition (.seVxKk 0 1#8) (atPc 0xFFE#12) = some false ∧
    (atPc 0xFFC#12).pc = 0xFFC#12 ∧ skipCondition (.sknpVx 15) (atPc 0xFFC#12) = some true :=
  ⟨⟨rfl, rfl, by decide, fun _ => by simp, fun _ => by simp, fun _ => by simp⟩, by decide, by decide, rfl, by decide⟩

/-- Even and odd, at the top of memory; `JP V0` with a sum that wraps. -/
theorem witness_JumpsGoToEvenTargetsOnly :
    (0xFFE#12).toNat % 2 = 0 ∧ (0xFFF#12).toNat % 2 = 1 ∧
    (0x0FE#12).toNat = ((0xFFF#12).toNat + ((withRegs [(0, 0xFF#8)]).readV 0).toNat) % 4096 ∧ (0x0FE#12).toNat % 2 = 0 ∧
    (0x0FD#12).toNat = ((0xFFE#12).toNat + ((withRegs [(0, 0xFF#8)]).readV 0).toNat) % 4096 ∧ (0x0FD#12).toNat % 2 = 1 := by
  decide

theorem witness_JumpToSelfIsIdle : (atPc 0xFFE#12).pc.toNat % 2 = 0 := by decide

/-- The last slot but one, the last free stack entry, the highest even target. -/
theorem witness_CallPushesTheReturnAddress :
    State.sp { atPc 0xFFC#12 with sp := 15 } < (16 : Nat) ∧ (atPc 0xFFC#12).pc.toNat + 2 ≤ pcMax ∧
      (0xFFE#12).toNat % 2 = 0 := by decide

theorem witness_CallErrorsInPriorityOrder :
    (State.sp { atPc 0xFFE#12 with sp := 16 }).val = 16 ∧
    ((State.sp { atPc 0xFFE#12 with sp := 15 }).val < 16 ∧ (atPc 0xFFE#12).pc.toNat + 2 > pcMax) ∧
    ((State.sp { atPc 0xFFC#12 with sp := 15 }).val < 16 ∧ (atPc 0xFFC#12).pc.toNat + 2 ≤ pcMax ∧
      (0xFFF#12).toNat % 2 = 1) := by decide

theorem witness_StackErrorsExactlyAtTheEnds :
    State.reset.status = .running ∧
    exec .ret State.reset = .next { State.reset with status := .halted .stackUnderflow } ∧
    exec (.callAddr 0x300#12) { State.reset with sp := 16 }
      = .next { State.reset with sp := 16, status := .halted .stackOverflow } :=
  ⟨rfl, next_of_nextIs (by decide), next_of_nextIs (by decide)⟩

theorem witness_ReturnGoesToThePoppedAddress :
    0 < (State.sp { State.reset with sp := 1 }).val ∧ 0 < (State.sp { State.reset with sp := 16 }).val := by decide

theorem witness_CallThenReturnResumes :
    (State.sp { atPc 0xFFC#12 with sp := 15 }).val < 16 ∧ (atPc 0xFFC#12).pc.toNat + 2 ≤ pcMax ∧
      (0x000#12).toNat % 2 = 0 := by decide

/-- Taken and not taken, each inside memory and past it. -/
theorem witness_SkipsMoveByFourOrTwo :
    (skipCondition (.seVxVy 3 3) (atPc 0xFFA#12) = some true ∧ (atPc 0xFFA#12).pc.toNat + 4 ≤ pcMax) ∧
    (skipCondition (.seVxVy 3 3) (atPc 0xFFC#12) = some true ∧ (atPc 0xFFC#12).pc.toNat + 4 > pcMax) ∧
    (skipCondition (.sneVxVy 3 3) (atPc 0xFFC#12) = some false ∧ (atPc 0xFFC#12).pc.toNat + 2 ≤ pcMax) ∧
    (skipCondition (.skpVx 15) (atPc 0xFFE#12) = some false ∧ (atPc 0xFFE#12).pc.toNat + 2 > pcMax) := by decide

theorem witness_LoadsAndLogicWriteVxAlone : (atPc 0xFFC#12).pc.toNat + 2 ≤ pcMax := by decide
theorem witness_AddWritesSumThenCarry : (atPc 0xFFC#12).pc.toNat + 2 ≤ pcMax := by decide
theorem witness_SubtractionsWriteDifferenceThenNotBorrow : (atPc 0xFFC#12).pc.toNat + 2 ≤ pcMax := by decide

/-- Both values of the quirk. -/
theorem witness_ShiftsWriteResultThenBitOut :
    (atPc 0xFFC#12).pc.toNat + 2 ≤ pcMax ∧ ∀ q : Bool,
      (if q then 0xFF else 0x80) = (if (State.config { withRegs [(0, 0x80#8), (1, 0xFF#8)] with
        config := { Config.initial with quirkShiftUsesVy := q } }).quirkShiftUsesVy
        then ((withRegs [(0, 0x80#8), (1, 0xFF#8)]).readV 1).toNat else ((withRegs [(0, 0x80#8), (1, 0xFF#8)]).readV 0).toNat) := by
  decide

theorem witness_RandomWritesAMaskedFreeByte : (atPc 0xFFC#12).pc.toNat + 2 ≤ pcMax := by decide
theorem witness_AddressFormsWriteIAlone : (atPc 0xFFC#12).pc.toNat + 2 ≤ pcMax := by decide

theorem witness_DecimalStoreWritesThreeDigits :
    (State.i { atPc 0xFFC#12 with i := 0xFFD#12 }).toNat + 2 ≤ 4095 ∧ (atPc 0xFFC#12).pc.toNat + 2 ≤ pcMax := by decide

/-- All sixteen registers up to the last byte, and one register at the last byte. -/
theorem witness_StoreWritesTheRegistersInOrder :
    (0xFF0#12).toNat + (15 : Reg).val ≤ 4095 ∧ (0xFFF#12).toNat + (0 : Reg).val ≤ 4095 ∧ (atPc 0xFFC#12).pc.toNat + 2 ≤ pcMax := by
  decide

theorem witness_LoadReadsTheRegistersInOrder :
    (0xFF0#12).toNat + (15 : Reg).val ≤ 4095 ∧ (0xFFF#12).toNat + (0 : Reg).val ≤ 4095 ∧ (atPc 0xFFC#12).pc.toNat + 2 ≤ pcMax := by
  decide

theorem witness_StoreThenLoadRestoresTheRegisters :
    (0xFF0#12).toNat + (15 : Reg).val ≤ 4095 ∧ (atPc 0xFFA#12).pc.toNat + 4 ≤ pcMax := by decide

/-- `I + x` and `I + 2` at 4095; a range that covers both bytes of the next instruction, one that reaches only the second
byte, only the first, and neither; all three digits. -/
theorem witness_StoreIsSeenByTheNextFetch :
    (atPc 0xFFC#12).pc.toNat + 2 ≤ pcMax ∧ (0xFFE#12).toNat + (1 : Reg).val ≤ 4095 ∧ (0xFFD#12).toNat + 2 ≤ 4095 ∧
    ((0xFFE#12).toNat + (0 : Reg).val = (atPc 0xFFC#12).pc.toNat + 2 ∧
      (0xFFE#12).toNat + (1 : Reg).val = (atPc 0xFFC#12).pc.toNat + 3) ∧
    ((atPc 0xFFC#12).pc.toNat + 2 < (0xFFF#12).toNat ∧ (0xFFF#12).toNat + (0 : Reg).val = (atPc 0xFFC#12).pc.toNat + 3) ∧
    ((0xFFC#12).toNat + (2 : Reg).val = (atPc 0xFFC#12).pc.toNat + 2 ∧
      (0xFFC#12).toNat + (2 : Reg).val < (atPc 0xFFC#12).pc.toNat + 3) ∧
    ((0x300#12).toNat + (15 : Reg).val < (atPc 0xFFC#12).pc.toNat + 2) ∧
    ((0xFFD#12).toNat + 1 = (atPc 0xFFC#12).pc.toNat + 2 ∧ (0xFFD#12).toNat + 2 = (atPc 0xFFC#12).pc.toNat + 3) ∧
    (0x202#12).toNat + 0 = (atPc 0x200#12).pc.toNat + 2 := by decide

/-- The first address that is too high, for each form. -/
theorem witness_DataAccessPastMemoryHalts :
    (0 < (15 : Fin 16).val ∧ (0xFF2#12).toNat + (15 : Fin 16).val > 4096) ∧ (0xFFE#12).toNat + 3 > 4096 ∧
    ((0xFF1#12).toNat + ((15 : Reg).val + 1) > 4096) := by decide

theorem witness_ClsClearsEveryPixel :
    (atPc 0xFFC#12).pc.toNat + 2 ≤ pcMax ∧ (atPc 0xFFE#12).pc.toNat + 2 > pcMax := by decide

/-- No rows at the last byte; fifteen rows up to the last byte; and both collision outcomes occur (D6, D8). -/
theorem witness_DrawXorsTheSpriteAndFlagsCollision :
    ((0 : Fin 16).val = 0 ∨ (0xFFF#12).toNat + (0 : Fin 16).val ≤ 4096) ∧ (0xFF1#12).toNat + (15 : Fin 16).val ≤ 4096 ∧
    (atPc 0xFFC#12).pc.toNat + 2 ≤ pcMax ∧
    ((Screen.clear.setPixel 0 0 true).pixel 0 0 = true ∧ Screen.clear.pixel 0 0 = false) := by decide

theorem witness_DrawingTwiceRestoresTheScreen :
    (0xFF1#12).toNat + (15 : Fin 16).val ≤ 4096 ∧ (atPc 0xFFA#12).pc.toNat + 4 ≤ pcMax := by decide

theorem witness_TimerFormsCopyOneByte : (atPc 0xFFC#12).pc.toNat + 2 ≤ pcMax := by decide

theorem witness_KeyWaitSuspendsWithoutAdvancing :
    (atPc 0xFFC#12).pc.toNat + 2 ≤ pcMax ∧ (atPc 0xFFE#12).pc.toNat + 2 > pcMax := by decide

theorem witness_KeyPressCompletesAWaitOnly :
    ((given (.keyPress 0xF#4)).pending = .keyPress 0xF#4 :: [] ∧
      State.status { given (.keyPress 0xF#4) with status := .waitingForKey, pc := 0xFFC#12 } = .waitingForKey ∧
      (atPc 0xFFC#12).pc.toNat + 2 ≤ pcMax) ∧
    (given (.keyPress 0xF#4)).status ≠ .waitingForKey := by decide

theorem witness_KeysUpdateReplacesTheSnapshotAlone :
    (given (.keysUpdate 0xA5F0#16)).pending = .keysUpdate 0xA5F0#16 :: [] := by decide

theorem witness_TickLowersBothTimersAlone :
    (given (.request .tick)).run = true ∧ (given (.request .tick)).pending = .request .tick :: [] := by decide

theorem witness_ResetClearsTheBlockAndKeepsMemory : (given .reset).pending = .reset :: [] := by decide

/-- A loaded state whose cycle request is pending first. -/
def requested (pc : Addr) (word : Nat) : State := { loaded pc word with pending := [.request .cycle] }

/-- One witness for each event that is no cycle, and for a cycle request to an engine that does not run or is paused. -/
theorem witness_StatusTransitionsAndNoOthers :
    step (given .reset) = .next State.reset ∧
    step { given (.keyPress 3#4) with status := .waitingForKey }
      = .next { State.reset with pc := 0x202#12, v := State.reset.v.set 0 3#8 } ∧
    step (given (.setRun false)) = .next { State.reset with run := false } ∧
    step { State.reset with status := .waitingForKey } = .next { State.reset with status := .waitingForKey } ∧
    step { given (.request .cycle) with status := .halted .stackOverflow }
      = .next { State.reset with status := .halted .stackOverflow } ∧
    step { given (.request .cycle) with run := false } = .next { State.reset with run := false } :=
  ⟨next_of_nextIs (by decide), next_of_nextIs (by decide), next_of_nextIs (by decide), next_of_nextIs (by decide),
    next_of_nextIs (by decide), next_of_nextIs (by decide)⟩

/-- The premises of the last clause, for a pending request and for the unprompted cycle: each outcome of a cycle occurs. -/
theorem witness_StatusTransitionsAndNoOthers_cycle :
    (requested 0x200#12 0x1200).cycleIsNext ∧ (loaded 0x200#12 0x1200).cycleIsNext ∧
    (requested 0x200#12 0x1200).status = .running ∧ (requested 0x200#12 0x1200).run = true ∧
    (decodeWord (requested 0x200#12 0x1200).wordAtPc = .ok (.jpAddr 0x200#12) ∧
      raisedHalt (.jpAddr 0x200#12) (requested 0x200#12 0x1200) = none ∧
      (afterStep (requested 0x200#12 0x1200)).status = .running) ∧
    (decodeWord (requested 0xFFC#12 0xF30A).wordAtPc = .ok (.ldVxK 3) ∧
      raisedHalt (.ldVxK 3) (requested 0xFFC#12 0xF30A) = none ∧
      (afterStep (requested 0xFFC#12 0xF30A)).status = .waitingForKey) ∧
    (raisedHalt (.ldVxK 3) (requested 0xFFE#12 0xF30A) = some (.outOfBounds 4096) ∧
      (afterStep (requested 0xFFE#12 0xF30A)).status = .halted (.outOfBounds 4096)) ∧
    (decodeWord (requested 0xFFE#12 0xF0FF).wordAtPc = .error (.unknownOpcode 0xF0FF#16) ∧
      (afterStep (requested 0xFFE#12 0xF0FF)).status = .halted (.unknownOpcode 0xF0FF#16)) ∧
    (atPc 0xFFF#12).pc.toNat > pcMax :=
  ⟨.inr ⟨_, rfl⟩, .inl rfl, rfl, rfl, by decide, by decide, by decide, by decide, by decide⟩

/-- 60_exceptions.md rule R240's rows, in a state worked by hand for each: T3, T9, T15, T33, M19, D13. -/
theorem test_raisedHalt :
    raisedHalt (.jpAddr 0x201#12) State.reset = some (.misalignedPC 0x201#12) ∧
    raisedHalt (.callAddr 0x301#12) { State.reset with sp := 16 } = some .stackOverflow ∧
    raisedHalt .ret State.reset = some .stackUnderflow ∧
    raisedHalt (.seVxKk 0 0#8) (atPc 0xFFC#12) = some (.outOfBounds 4096) ∧
    raisedHalt (.ldBVx 0) { State.reset with i := 0xFFE#12 } = some (.outOfBounds 4096) ∧
    raisedHalt (.drwVxVyN 0 0 15) { State.reset with i := 0xFF2#12 } = some (.outOfBounds 4096) ∧
    raisedHalt (.drwVxVyN 0 0 0) { State.reset with i := 0xFFF#12 } = none := by decide

theorem witness_EveryStepKeepsTheInvariants :
    State.Inv (given (.request .tick)) ∧ step (given (.request .tick)) = .next State.reset :=
  ⟨⟨by unfold evenAddr; decide, by unfold evenAddr; decide, (fun h => by cases h), by decide⟩, next_of_nextIs (by decide)⟩

theorem witness_EveryStepKeepsTheBudgetsFractions :
    State.BudgetInv (given (.request .tick)) ∧ step (given (.request .tick)) = .next State.reset :=
  ⟨⟨by decide +kernel, by decide +kernel, by decide +kernel⟩, next_of_nextIs (by decide)⟩

theorem witness_InputsChangeOnlyFromOutside : step (given (.keysUpdate 1#16)) = .next { State.reset with keys := 1#16 } :=
  next_of_nextIs (by decide)

theorem witness_StateIsWrittenOnlyByTheFormsNamed :
    exec (.ldDtVx 2) (withRegs [(2, 60#8)]) = .next { withRegs [(2, 60#8)] with dt := 60#8, pc := 0x202#12 } :=
  next_of_nextIs (by decide)

theorem witness_SoundTimerLatchAndKeysAreNotRead :
    exec (.ldVxDt 2) State.reset = .next (atPc 0x202#12) ∧ ∀ x : Reg, Instr.ldVxDt 2 ≠ .skpVx x ∧ Instr.ldVxDt 2 ≠ .sknpVx x :=
  ⟨next_of_nextIs (by decide), fun _ => ⟨by simp, by simp⟩⟩

/-- No time and half a second. -/
theorem witness_IterationIssuesWhatTheBudgetsPayFor :
    State.BudgetInv (given (.elapse (1 / 2) [.tick])) ∧ (given (.elapse (1 / 2) [.tick])).run = true ∧ (0 : Rat) ≤ 0 ∧
      (0 : Rat) ≤ 1 / 2 ∧ (given (.elapse (1 / 2) [.tick])).pending = .elapse (1 / 2) [.tick] :: [] :=
  ⟨⟨by decide +kernel, by decide +kernel, by decide +kernel⟩, rfl, by decide +kernel, by decide +kernel, rfl⟩

theorem witness_PausedMachineIsFrozen :
    State.run { State.reset with run := false } = false ∧ State.reset.pending = [] ∧
    (given (.request .cycle)).pending = .request .cycle :: [] ∧ (given (.elapse 1 [])).pending = .elapse 1 [] :: [] :=
  ⟨rfl, rfl, rfl, rfl⟩

/-- The bytes beside the font, and images of the largest size and one more. -/
theorem witness_LoaderPlacesFontAndProgram :
    80 > State.reset.config.fontBase.toNat + 79 ∧ (List.replicate 3584 1#8).length ≤ 3584 ∧
    (List.replicate 3585 1#8).length > 3584 := by
  refine ⟨by decide, Nat.le_of_eq List.length_replicate, ?_⟩
  rw [List.length_replicate]; decide

theorem witness_OutputsShowStatusAndSound :
    State.status { State.reset with status := .halted (.outOfBounds 4098) } = .halted (.outOfBounds 4098) ∧ 4098 < 65536 := by
  decide

end Sys2Proof.Tests
end

section
/-!
PROOFS. The decimal digits of a byte and the `KeysUpdate` event (rules R128, R129).
-/
namespace Sys2Proof.Machine

/-- Rule R128's three divisions: each digit is small enough for the byte that holds it. -/
theorem decimalDigits_values (b : Byte) :
    ∃ h t o : Byte, decimalDigits b = [h, t, o] ∧
      h.toNat = b.toNat / 100 ∧ t.toNat = b.toNat / 10 % 10 ∧ o.toNat = b.toNat % 10 := by
  have hb : b.toNat < 2 ^ 8 := b.isLt
  refine ⟨_, _, _, rfl, ?_, ?_, ?_⟩ <;> rw [BitVec.toNat_ofNat, Nat.mod_eq_of_lt (by omega)]

/-- Settles O27: the digits are rule R128's quotient and remainders of a number below 256. -/
theorem decimalDigitsRecompose : Obligations.DecimalDigitsRecompose := by
  intro b
  have hb : b.toNat < 2 ^ 8 := b.isLt
  obtain ⟨h, t, o, digits, hundreds, tens, ones⟩ := decimalDigits_values b
  have recompose : 100 * h.toNat + 10 * t.toNat + o.toNat = b.toNat := by omega
  exact ⟨h, t, o, digits, by omega, by omega, by omega, recompose⟩

/-- Settles O40: the state after the step is `State.keysUpdate` of the state without that input, whatever `STATUS` is. -/
theorem keysUpdateReplacesTheSnapshotAlone : Obligations.KeysUpdateReplacesTheSnapshotAlone := by
  intro s snapshot rest h
  refine ⟨State.keysUpdate { s with pending := rest } snapshot, step_of_pending h, fun k => ?_, rfl⟩
  rw [State.keysUpdate_keys]

end Sys2Proof.Machine
end

section
/-!
PROOFS. The display instructions (44_display.md, rules R210 to R213).
-/
namespace Sys2Proof.Machine

/-- An address advanced to one that is at most 4094 has not wrapped. -/
theorem advanced_toNat {pc : Addr} {k : Nat} (h : pc.toNat + k ≤ pcMax) :
    (BitVec.ofNat 12 (pc.toNat + k)).toNat = pc.toNat + k := by
  have hmax : pcMax = 4094 := rfl
  rw [BitVec.toNat_ofNat, Nat.mod_eq_of_lt (by omega)]

@[simp] theorem flagByte_eq_one_iff (b : Bool) : flagByte b = 1#8 ↔ b = true := by cases b <;> decide

@[simp] theorem flagByte_eq_zero_iff (b : Bool) : flagByte b = 0#8 ↔ b = false := by cases b <;> decide

/-- Framebuffers with the same 2048 pixels are equal. -/
theorem Screen.ext_pixel {a b : Screen} (h : ∀ r c, a.pixel r c = b.pixel r c) : a = b := by
  refine Vector.ext fun r hr => Vector.ext fun c hc => ?_
  exact h ⟨r, hr⟩ ⟨c, hc⟩

/-! ### The state after a draw that completes -/

/-- The state after a `DRW Vx,Vy,n` that does not halt (rule R211). -/
def State.drawn (s : State) (x y : Reg) (n : Fin 16) : State :=
  { { s with fb := (s.drawSprite (s.readV x) (s.readV y) n.val).1 }.writeV 15
      (flagByte (s.drawSprite (s.readV x) (s.readV y) n.val).2) with pc := BitVec.ofNat 12 (s.pc.toNat + 2) }

/-- `DRW` completes when its sprite lies in RAM and it is not in the last slot. -/
theorem exec_drwVxVyN_of_le {s : State} (x y : Reg) {n : Fin 16} (hi : n.val = 0 ∨ s.i.toNat + n.val ≤ 4096)
    (hp : s.pc.toNat + 2 ≤ pcMax) : exec (.drwVxVyN x y n) s = .next (s.drawn x y n) :=
  State.accessAtI_of_le hi.symm hp

/-- A draw inverts the pixels under the sprite's bits 1 (rules R212, R213). -/
theorem State.drawn_pixel (s : State) (x y : Reg) (n : Fin 16) (r : Fin 32) (c : Fin 64) :
    (s.drawn x y n).fb.pixel r c = (s.fb.pixel r c ^^ s.spriteBit (s.readV x) (s.readV y) n.val r c) :=
  (drawSprite_spec s _ _ n.val n.isLt.le).1 r c

/-- A draw writes `VF` alone among the registers, with the collision flag. -/
theorem State.drawn_readV (s : State) (x y : Reg) (n : Fin 16) (z : Reg) :
    (s.drawn x y n).readV z =
      if z = 15 then flagByte (s.drawSprite (s.readV x) (s.readV y) n.val).2 else s.readV z :=
  State.readV_writeV _ 15 z _

/-- `VF` is 1 exactly when a bit 1 of the sprite meets a set pixel (rule R213). -/
theorem State.drawn_vf_eq_one_iff (s : State) (x y : Reg) (n : Fin 16) :
    (s.drawn x y n).readV 15 = 1#8 ↔
      ∃ r c, s.fb.pixel r c = true ∧ s.spriteBit (s.readV x) (s.readV y) n.val r c = true := by
  rw [State.drawn_readV, if_pos rfl, flagByte_eq_one_iff]
  exact (drawSprite_spec s _ _ n.val n.isLt.le).2

/-- A draw leaves `VF` 0 or 1 and no other value (rule R22). -/
theorem State.drawn_vf_eq_zero_iff (s : State) (x y : Reg) (n : Fin 16) :
    (s.drawn x y n).readV 15 = 0#8 ↔ ¬ (s.drawn x y n).readV 15 = 1#8 := by
  rw [State.drawn_readV, if_pos rfl, flagByte_eq_zero_iff, flagByte_eq_one_iff, Bool.not_eq_true]

/-- `VF` is 1 exactly when some pixel goes from 1 to 0 (rule R213): a set pixel is cleared exactly under a bit 1. -/
theorem State.drawn_vf_eq_one_iff_cleared (s : State) (x y : Reg) (n : Fin 16) :
    (s.drawn x y n).readV 15 = 1#8 ↔ ∃ r c, s.fb.pixel r c = true ∧ (s.drawn x y n).fb.pixel r c = false := by
  rw [State.drawn_vf_eq_one_iff]
  refine exists_congr fun r => exists_congr fun c => and_congr_right fun wasSet => ?_
  rw [State.drawn_pixel, wasSet, Bool.true_xor, Bool.not_eq_false']

/-- Settles O35: the pixels and the collision are `drawSprite_spec`'s, and the rest is the frame of `State.drawn`. -/
theorem drawXorsTheSpriteAndFlagsCollision : Obligations.DrawXorsTheSpriteAndFlagsCollision := by
  intro x y n s hi hp
  have collision := s.drawn_vf_eq_one_iff_cleared x y n
  refine ⟨s.drawn x y n, exec_drwVxVyN_of_le x y hi hp, s.drawn_pixel x y n, collision.2, fun kept => ?_,
    fun z hz => ?_, advanced_toNat hp, rfl, State.readByte_congr rfl⟩
  · rw [State.drawn_vf_eq_zero_iff, collision]
    rintro ⟨r, c, wasSet, cleared⟩
    exact Bool.false_ne_true (cleared.symm.trans (kept r c wasSet))
  · rw [State.drawn_readV, if_neg hz]

/-! ### Drawing again at the same place -/

/-- The state after a draw with the registers put back, so that a second draw has the same coordinates. -/
def State.drawnKeepingV (s : State) (x y : Reg) (n : Fin 16) : State := { s.drawn x y n with v := s.v }

/-- The second draw sees the sprite the first saw: `I`, the bytes of memory and the coordinates are the same. -/
theorem State.drawnKeepingV_spriteBit (s : State) (x y : Reg) (n : Fin 16) (r : Fin 32) (c : Fin 64) :
    (s.drawnKeepingV x y n).spriteBit ((s.drawnKeepingV x y n).readV x) ((s.drawnKeepingV x y n).readV y) n.val r c
      = s.spriteBit (s.readV x) (s.readV y) n.val r c := rfl

theorem State.drawnKeepingV_pixel (s : State) (x y : Reg) (n : Fin 16) (r : Fin 32) (c : Fin 64) :
    (s.drawnKeepingV x y n).fb.pixel r c = (s.fb.pixel r c ^^ s.spriteBit (s.readV x) (s.readV y) n.val r c) :=
  s.drawn_pixel x y n r c

/-- Two inversions of the same pixels cancel (rule R213). -/
theorem State.drawnKeepingV_drawn_fb (s : State) (x y : Reg) (n : Fin 16) :
    ((s.drawnKeepingV x y n).drawn x y n).fb = s.fb := by
  refine Screen.ext_pixel fun r c => ?_
  rw [State.drawn_pixel, State.drawnKeepingV_spriteBit, State.drawnKeepingV_pixel, Bool.xor_assoc, Bool.xor_self,
    Bool.xor_false]

/-- A bit 1 of the sprite meets a set pixel in the second draw exactly where it met a clear one in the first. -/
theorem State.drawnKeepingV_drawn_vf_eq_one_iff (s : State) (x y : Reg) (n : Fin 16) :
    ((s.drawnKeepingV x y n).drawn x y n).readV 15 = 1#8 ↔
      ∃ r c, s.fb.pixel r c = false ∧ s.spriteBit (s.readV x) (s.readV y) n.val r c = true := by
  rw [State.drawn_vf_eq_one_iff]
  refine exists_congr fun r => exists_congr fun c => ?_
  rw [State.drawnKeepingV_spriteBit, State.drawnKeepingV_pixel]
  refine and_congr_left fun bit => ?_
  rw [bit, Bool.xor_true, Bool.not_eq_true']

/-- Settles O36: the second draw is a draw from `State.drawnKeepingV`, two bytes further on. -/
theorem drawingTwiceRestoresTheScreen : Obligations.DrawingTwiceRestoresTheScreen := by
  intro x y n s hi hp
  have hp1 : s.pc.toNat + 2 ≤ pcMax := by omega
  have hpc : (s.drawnKeepingV x y n).pc.toNat = s.pc.toNat + 2 := advanced_toNat hp1
  have hp2 : (s.drawnKeepingV x y n).pc.toNat + 2 ≤ pcMax := by omega
  exact ⟨s.drawn x y n, (s.drawnKeepingV x y n).drawn x y n, exec_drwVxVyN_of_le x y hi hp1,
    exec_drwVxVyN_of_le (s := s.drawnKeepingV x y n) x y hi hp2, s.drawnKeepingV_drawn_fb x y n,
    s.drawnKeepingV_drawn_vf_eq_one_iff x y n⟩

/-! ### Clearing the screen -/

/-- Settles O34: `CLS` finishes with the clear screen, and `finish` in the last slot halts. -/
theorem clsClearsEveryPixel : Obligations.ClsClearsEveryPixel := by
  intro s
  constructor
  · intro hp
    exact ⟨_, State.finish_of_le hp, Screen.pixel_clear, advanced_toNat hp, rfl, State.readByte_congr rfl⟩
  · exact State.finish_of_gt

end Sys2Proof.Machine
end

section
/-!
PROOFS. The stack's two errors (60_exceptions.md, rules R245, R246).
-/
namespace Sys2Proof.Machine

/-- A running engine is halted by an instruction exactly for the reason rule R240's table gives. -/
theorem exec_halted_iff {i : Instr} {s t : State} (running : s.status = .running) (next : exec i s = .next t)
    (r : HaltReason) : t.status = .halted r ↔ raisedHalt i s = some r := by
  have hans := exec_answers i s
  cases hraised : raisedHalt i s with
  | some q =>
    rw [hraised, next] at hans
    obtain rfl : t = s.raiseHalt q := Host.Outcome.next.inj hans
    rw [State.raiseHalt, Status.halted.injEq, Option.some.injEq]
  | none =>
    rw [hraised, next] at hans
    obtain ⟨u, hu, hstatus⟩ := hans
    obtain rfl : t = u := Host.Outcome.next.inj hu
    have notHalted : t.status ≠ .halted r := by
      rw [hstatus, running]
      cases i <;> exact Status.noConfusion
    exact iff_of_false notHalted (Option.some_ne_none r).symm

/-! ### The reasons an instruction can halt for -/

theorem advanceHalt_outOfBounds {s : State} {k : Nat} {r : HaltReason} (h : advanceHalt s k = some r) :
    ∃ a, r = .outOfBounds a := by
  obtain ⟨-, ⟨⟩⟩ := Option.ite_none_right_eq_some.mp h
  exact ⟨_, rfl⟩

theorem targetHalt_misalignedPC {target : Nat} {r : HaltReason} (h : targetHalt target = some r) :
    ∃ a, r = .misalignedPC a := by
  obtain ⟨-, ⟨⟩⟩ := Option.ite_none_right_eq_some.mp h
  exact ⟨_, rfl⟩

theorem dataHalt_outOfBounds {s : State} {n : Nat} {r : HaltReason} (h : dataHalt s n = some r) :
    ∃ a, r = .outOfBounds a := by
  unfold dataHalt at h
  split at h
  · exact ⟨memSize, (Option.some.inj h).symm⟩
  · exact advanceHalt_outOfBounds h

/-- Rule R240's table read from the reason: an instruction halts for an address, or it is a `CALL` on a full stack or a
`RET` on an empty one. -/
theorem raisedHalt_cases {i : Instr} {s : State} {r : HaltReason} (h : raisedHalt i s = some r) :
    (∃ a, r = .outOfBounds a) ∨ (∃ a, r = .misalignedPC a) ∨
    (r = .stackOverflow ∧ (∃ nnn, i = .callAddr nnn) ∧ s.sp.val = 16) ∨
    (r = .stackUnderflow ∧ i = .ret ∧ s.sp.val = 0) := by
  cases i
  case callAddr nnn =>
    simp only [raisedHalt] at h
    split at h
    next full => exact .inr (.inr (.inl ⟨(Option.some.inj h).symm, ⟨nnn, rfl⟩, full⟩))
    next =>
      split at h
      · exact .inl ⟨_, (Option.some.inj h).symm⟩
      · exact .inr (.inl (targetHalt_misalignedPC h))
  case ret =>
    obtain ⟨empty, ⟨⟩⟩ := Option.ite_none_right_eq_some.mp h
    exact .inr (.inr (.inr ⟨rfl, rfl, empty⟩))
  case jpAddr => exact .inr (.inl (targetHalt_misalignedPC h))
  case jpV0Addr => exact .inr (.inl (targetHalt_misalignedPC h))
  case drwVxVyN => exact .inl (dataHalt_outOfBounds h)
  case ldBVx => exact .inl (dataHalt_outOfBounds h)
  case ldMemVx => exact .inl (dataHalt_outOfBounds h)
  case ldVxMem => exact .inl (dataHalt_outOfBounds h)
  all_goals exact .inl (advanceHalt_outOfBounds h)

/-- `StackOverflow` comes from `CALL` with 16 entries on the stack alone (rule R245). -/
theorem raisedHalt_eq_stackOverflow_iff (i : Instr) (s : State) :
    raisedHalt i s = some .stackOverflow ↔ (∃ nnn, i = .callAddr nnn) ∧ s.sp.val = 16 := by
  constructor
  · intro h
    obtain ⟨_, e⟩ | ⟨_, e⟩ | ⟨-, callFull⟩ | ⟨e, -⟩ := raisedHalt_cases h
    · cases e
    · cases e
    · exact callFull
    · cases e
  · rintro ⟨⟨nnn, rfl⟩, full⟩
    exact if_pos full

/-- `StackUnderflow` comes from `RET` with an empty stack alone (rule R246). -/
theorem raisedHalt_eq_stackUnderflow_iff (i : Instr) (s : State) :
    raisedHalt i s = some .stackUnderflow ↔ i = .ret ∧ s.sp.val = 0 := by
  constructor
  · intro h
    obtain ⟨_, e⟩ | ⟨_, e⟩ | ⟨e, -⟩ | ⟨-, retEmpty⟩ := raisedHalt_cases h
    · cases e
    · cases e
    · cases e
    · exact retEmpty
  · rintro ⟨rfl, empty⟩
    exact if_pos empty

/-- Settles O17: an instruction halts exactly as `raisedHalt` says, and there the two errors have these two causes. -/
theorem stackErrorsExactlyAtTheEnds : Obligations.StackErrorsExactlyAtTheEnds := by
  constructor
  · intro i s t running next
    rw [exec_halted_iff running next, raisedHalt_eq_stackOverflow_iff]
  · intro i s t running next
    rw [exec_halted_iff running next, raisedHalt_eq_stackUnderflow_iff]

end Sys2Proof.Machine
end

section
/-!
PROOFS. Encoding (30_encoding.md section 3, 20_memory.md section 3): the decoder and the encoder undo each other, and the
decoder accepts rule R95's map.
-/
namespace Sys2Proof

/-! ### A word is the format of its fields (rules R91, R92) -/

theorem formatA_of_fields {w : Word} {op : BitVec 4} (hop : (opField w).toNat = op.toNat) :
    formatA op (nnnField w) = w := by
  obtain rfl := BitVec.eq_of_toNat_eq hop
  exact (BitVec.extractLsb'_append_extractLsb'_eq_extractLsb' rfl).trans BitVec.extractLsb'_eq_self

theorem formatXK_of_fields {w : Word} {op : BitVec 4} {kk : Byte} (hop : (opField w).toNat = op.toNat)
    (hkk : kkField w = kk) : formatXK op (xField w) kk = w := by
  obtain rfl := BitVec.eq_of_toNat_eq hop
  subst hkk
  have opX : opField w ++ (BitVec.ofFin (xField w) : BitVec 4) = w.extractLsb' 8 8 :=
    BitVec.extractLsb'_append_extractLsb'_eq_extractLsb' rfl
  rw [formatXK, opX]
  exact (BitVec.extractLsb'_append_extractLsb'_eq_extractLsb' rfl).trans BitVec.extractLsb'_eq_self

theorem formatXY_of_fields {w : Word} {op sub : BitVec 4} (hop : (opField w).toNat = op.toNat)
    (hsub : (subField w).toNat = sub.toNat) : formatXY op (xField w) (yField w) sub = w := by
  obtain rfl := BitVec.eq_of_toNat_eq hop
  obtain rfl := BitVec.eq_of_toNat_eq hsub
  have opX : opField w ++ (BitVec.ofFin (xField w) : BitVec 4) = w.extractLsb' 8 8 :=
    BitVec.extractLsb'_append_extractLsb'_eq_extractLsb' rfl
  have opXY : w.extractLsb' 8 8 ++ (BitVec.ofFin (yField w) : BitVec 4) = w.extractLsb' 4 12 :=
    BitVec.extractLsb'_append_extractLsb'_eq_extractLsb' rfl
  rw [formatXY, opX, opXY]
  exact (BitVec.extractLsb'_append_extractLsb'_eq_extractLsb' rfl).trans BitVec.extractLsb'_eq_self

/-! ### Decoding an encoded instruction -/

/-- Settles O1: the fields the decoder reads from an instruction's format select its row and are its operands. -/
theorem decodeOfEncodeIsTheInstruction : Obligations.DecodeOfEncodeIsTheInstruction := by
  intro i
  cases i
  case cls => decide
  case ret => decide
  case jpAddr | callAddr | ldIAddr | jpV0Addr => simp [encode, decodeWord, opField_formatA, nnnField_formatA]
  case seVxKk | sneVxKk | ldVxKk | addVxKk | rndVxKk =>
    simp [encode, decodeWord, opField_formatXK, xField_formatXK, kkField_formatXK]
  case seVxVy =>
    simp [encode, decodeWord, decodeFamily5, opField_formatXY, xField_formatXY, yField_formatXY, subField_formatXY]
  case ldVxVy | orVxVy | andVxVy | xorVxVy | addVxVy | subVxVy | shrVxVy | subnVxVy | shlVxVy =>
    simp [encode, decodeWord, decodeFamily8, opField_formatXY, xField_formatXY, yField_formatXY, subField_formatXY]
  case sneVxVy =>
    simp [encode, decodeWord, decodeFamily9, opField_formatXY, xField_formatXY, yField_formatXY, subField_formatXY]
  case drwVxVyN => simp [encode, decodeWord, opField_formatXY, xField_formatXY, yField_formatXY, nField_formatXY]
  case skpVx | sknpVx =>
    simp [encode, decodeWord, decodeFamilyE, opField_formatXK, xField_formatXK, kkField_formatXK]
  all_goals simp [encode, decodeWord, decodeFamilyF, opField_formatXK, xField_formatXK, kkField_formatXK]

/-! ### Encoding a decoded word -/

theorem encode_of_decodeFamily0 {w : Word} {i : Instr} (h : decodeFamily0 w = .ok i) : encode i = w := by
  unfold decodeFamily0 at h
  split at h
  · cases h; exact ‹w = _›.symm
  split at h
  · cases h; exact ‹w = _›.symm
  · cases h

theorem encode_of_decodeFamily5 {w : Word} {i : Instr} (hop : (opField w).toNat = 0x5)
    (h : decodeFamily5 w = .ok i) : encode i = w := by
  unfold decodeFamily5 at h
  split at h
  next hsub => cases h; exact formatXY_of_fields hop (congrArg _ hsub)
  next => cases h

theorem encode_of_decodeFamily8 {w : Word} {i : Instr} (hop : (opField w).toNat = 0x8)
    (h : decodeFamily8 w = .ok i) : encode i = w := by
  unfold decodeFamily8 at h
  split at h
  case h_10 => cases h
  all_goals cases h; exact formatXY_of_fields hop ‹(subField w).toNat = _›

theorem encode_of_decodeFamily9 {w : Word} {i : Instr} (hop : (opField w).toNat = 0x9)
    (h : decodeFamily9 w = .ok i) : encode i = w := by
  unfold decodeFamily9 at h
  split at h
  next hsub => cases h; exact formatXY_of_fields hop (congrArg _ hsub)
  next => cases h

theorem encode_of_decodeFamilyE {w : Word} {i : Instr} (hop : (opField w).toNat = 0xE)
    (h : decodeFamilyE w = .ok i) : encode i = w := by
  unfold decodeFamilyE at h
  repeat (split at h; next hkk => cases h; exact formatXK_of_fields hop hkk)
  cases h

theorem encode_of_decodeFamilyF {w : Word} {i : Instr} (hop : (opField w).toNat = 0xF)
    (h : decodeFamilyF w = .ok i) : encode i = w := by
  unfold decodeFamilyF at h
  repeat (split at h; next hkk => cases h; exact formatXK_of_fields hop hkk)
  cases h

/-- Settles O2: in each family the fields read give the word back. -/
theorem encodeOfDecodeIsTheWord : Obligations.EncodeOfDecodeIsTheWord := by
  intro w i h
  unfold decodeWord at h
  split at h
  case h_1 => exact encode_of_decodeFamily0 h
  case h_6 hop => exact encode_of_decodeFamily5 hop h
  case h_9 hop => exact encode_of_decodeFamily8 hop h
  case h_10 hop => exact encode_of_decodeFamily9 hop h
  case h_14 hop => cases h; exact formatXY_of_fields hop rfl
  case h_15 hop => exact encode_of_decodeFamilyE hop h
  case h_16 hop => exact encode_of_decodeFamilyF hop h
  case h_17 => cases h
  case h_2 hop | h_3 hop | h_11 hop | h_12 hop => cases h; exact formatA_of_fields hop
  all_goals cases h; exact formatXK_of_fields ‹(opField w).toNat = _› rfl

/-! ### The map of 34 rows (rule R94) -/

/-- `EncodingFitsItsRow` for all 34 forms. -/
theorem encode_fits_its_row (i : Instr) : encode i &&& (opcodeRow i).1 = (opcodeRow i).2 := by
  have fits : Laws.EncodingFitsItsRow.Statement i :=
    match i with
    | .cls => Laws.EncodingFitsItsRow.cls
    | .ret => Laws.EncodingFitsItsRow.ret
    | .jpAddr nnn => Laws.EncodingFitsItsRow.jpAddr nnn
    | .callAddr nnn => Laws.EncodingFitsItsRow.callAddr nnn
    | .seVxKk x kk => Laws.EncodingFitsItsRow.seVxKk x kk
    | .sneVxKk x kk => Laws.EncodingFitsItsRow.sneVxKk x kk
    | .seVxVy x y => Laws.EncodingFitsItsRow.seVxVy x y
    | .ldVxKk x kk => Laws.EncodingFitsItsRow.ldVxKk x kk
    | .addVxKk x kk => Laws.EncodingFitsItsRow.addVxKk x kk
    | .ldVxVy x y => Laws.EncodingFitsItsRow.ldVxVy x y
    | .orVxVy x y => Laws.EncodingFitsItsRow.orVxVy x y
    | .andVxVy x y => Laws.EncodingFitsItsRow.andVxVy x y
    | .xorVxVy x y => Laws.EncodingFitsItsRow.xorVxVy x y
    | .addVxVy x y => Laws.EncodingFitsItsRow.addVxVy x y
    | .subVxVy x y => Laws.EncodingFitsItsRow.subVxVy x y
    | .shrVxVy x y => Laws.EncodingFitsItsRow.shrVxVy x y
    | .subnVxVy x y => Laws.EncodingFitsItsRow.subnVxVy x y
    | .shlVxVy x y => Laws.EncodingFitsItsRow.shlVxVy x y
    | .sneVxVy x y => Laws.EncodingFitsItsRow.sneVxVy x y
    | .ldIAddr nnn => Laws.EncodingFitsItsRow.ldIAddr nnn
    | .jpV0Addr nnn => Laws.EncodingFitsItsRow.jpV0Addr nnn
    | .rndVxKk x kk => Laws.EncodingFitsItsRow.rndVxKk x kk
    | .drwVxVyN x y n => Laws.EncodingFitsItsRow.drwVxVyN x y n
    | .skpVx x => Laws.EncodingFitsItsRow.skpVx x
    | .sknpVx x => Laws.EncodingFitsItsRow.sknpVx x
    | .ldVxDt x => Laws.EncodingFitsItsRow.ldVxDt x
    | .ldVxK x => Laws.EncodingFitsItsRow.ldVxK x
    | .ldDtVx x => Laws.EncodingFitsItsRow.ldDtVx x
    | .ldStVx x => Laws.EncodingFitsItsRow.ldStVx x
    | .addIVx x => Laws.EncodingFitsItsRow.addIVx x
    | .ldFVx x => Laws.EncodingFitsItsRow.ldFVx x
    | .ldBVx x => Laws.EncodingFitsItsRow.ldBVx x
    | .ldMemVx x => Laws.EncodingFitsItsRow.ldMemVx x
    | .ldVxMem x => Laws.EncodingFitsItsRow.ldVxMem x
  exact beq_iff_eq.mp fits

theorem opcodeRow_mem_opcodeRows (i : Instr) : opcodeRow i ∈ opcodeRows := by
  cases i <;> simp [opcodeRow, opcodeRows]

/-- Every row of the map is the row of some form. -/
theorem exists_opcodeRow_of_mem {row : Word × Word} (h : row ∈ opcodeRows) : ∃ i, opcodeRow i = row := by
  have rowsOfForms : opcodeRows = [.cls, .ret, .jpAddr 0, .callAddr 0, .seVxKk 0 0, .sneVxKk 0 0, .seVxVy 0 0,
    .ldVxKk 0 0, .addVxKk 0 0, .ldVxVy 0 0, .orVxVy 0 0, .andVxVy 0 0, .xorVxVy 0 0, .addVxVy 0 0, .subVxVy 0 0,
    .shrVxVy 0 0, .subnVxVy 0 0, .shlVxVy 0 0, .sneVxVy 0 0, .ldIAddr 0, .jpV0Addr 0, .rndVxKk 0 0, .drwVxVyN 0 0 0,
    .skpVx 0, .sknpVx 0, .ldVxDt 0, .ldVxK 0, .ldDtVx 0, .ldStVx 0, .addIVx 0, .ldFVx 0, .ldBVx 0, .ldMemVx 0,
    .ldVxMem 0].map opcodeRow := by decide
  rw [rowsOfForms] at h
  obtain ⟨i, -, hi⟩ := List.mem_map.mp h
  exact ⟨i, hi⟩

/-- A mask that keeps the family selector (as every mask of the map does) fixes it. -/
theorem opField_of_row {w mask want : Word} (h : w &&& mask = want) (hm : opField mask = BitVec.allOnes 4) :
    opField w = opField want := by
  rw [← h, opField, opField, BitVec.extractLsb'_and]
  exact (hm ▸ BitVec.and_allOnes).symm

theorem subField_of_row {w want : Word} (h : w &&& 0xF00F#16 = want) : subField w = subField want := by
  rw [← h, subField, subField, BitVec.extractLsb'_and]
  exact BitVec.and_allOnes.symm

theorem kkField_of_row {w want : Word} (h : w &&& 0xF0FF#16 = want) : kkField w = kkField want := by
  rw [← h, kkField, kkField, BitVec.extractLsb'_and]
  exact BitVec.and_allOnes.symm

theorem eq_of_full_row {w want : Word} (h : w &&& 0xFFFF#16 = want) : w = want :=
  BitVec.and_allOnes.symm.trans h

/-- A word that matches a form's row decodes to that form: the mask keeps the fields the decoder selects on. -/
theorem decodeWord_of_row {w : Word} (i : Instr) (h : w &&& (opcodeRow i).1 = (opcodeRow i).2) :
    ∃ j, decodeWord w = .ok j ∧ opcodeRow j = opcodeRow i := by
  cases i <;> simp only [opcodeRow] at h
  case cls => exact ⟨.cls, by rw [eq_of_full_row h]; rfl, rfl⟩
  case ret => exact ⟨.ret, by rw [eq_of_full_row h]; rfl, rfl⟩
  case seVxVy | ldVxVy | orVxVy | andVxVy | xorVxVy | addVxVy | subVxVy | shrVxVy | subnVxVy | shlVxVy | sneVxVy =>
    have op := opField_of_row h rfl
    have sub := subField_of_row h
    simp only [decodeWord, decodeFamily5, decodeFamily8, decodeFamily9, op, sub]
    refine ⟨_, rfl, ?_⟩
    rfl
  case skpVx | sknpVx | ldVxDt | ldVxK | ldDtVx | ldStVx | addIVx | ldFVx | ldBVx | ldMemVx | ldVxMem =>
    have op := opField_of_row h rfl
    have kk := kkField_of_row h
    simp only [decodeWord, decodeFamilyE, decodeFamilyF, op, kk]
    refine ⟨_, rfl, ?_⟩
    rfl
  all_goals
    have op := opField_of_row h rfl
    simp only [decodeWord, op]
    refine ⟨_, rfl, ?_⟩
    rfl

/-- Everything the decoder can answer for a word. -/
theorem decodeWord_cases (w : Word) : (∃ i, decodeWord w = .ok i) ∨ decodeWord w = .error (.unknownOpcode w) := by
  unfold decodeWord decodeFamily0 decodeFamily5 decodeFamily8 decodeFamily9 decodeFamilyE decodeFamilyF
  repeat' split
  all_goals simp

/-- A word that decodes matches the row of the form it decodes to. -/
theorem row_of_decodeWord {w : Word} {i : Instr} (h : decodeWord w = .ok i) :
    w &&& (opcodeRow i).1 = (opcodeRow i).2 := by
  rw [← encodeOfDecodeIsTheWord w i h]
  exact encode_fits_its_row i

/-- A word that matches a row decodes to a form of that row. -/
theorem decodeWord_of_mem_opcodeRows {w : Word} {row : Word × Word} (hrow : row ∈ opcodeRows)
    (h : w &&& row.1 = row.2) : ∃ i, decodeWord w = .ok i ∧ opcodeRow i = row := by
  obtain ⟨i, rfl⟩ := exists_opcodeRow_of_mem hrow
  exact decodeWord_of_row i h

/-- Settles O3: a row is matched exactly by the words that decode to its form, and a word decodes to one form. -/
theorem decodeAcceptsExactlyTheMap : Obligations.DecodeAcceptsExactlyTheMap := by
  refine ⟨rfl, fun w => ⟨?_, ?_⟩, fun w i h => ⟨opcodeRow_mem_opcodeRows i, row_of_decodeWord h⟩, ?_, ?_⟩
  · rintro ⟨i, h⟩
    exact ⟨opcodeRow i, opcodeRow_mem_opcodeRows i, row_of_decodeWord h⟩
  · rintro ⟨row, hrow, h⟩
    obtain ⟨i, hi, -⟩ := decodeWord_of_mem_opcodeRows hrow h
    exact ⟨i, hi⟩
  · intro w a ha b hb hwa hwb
    obtain ⟨i, hi, rfl⟩ := decodeWord_of_mem_opcodeRows ha hwa
    obtain ⟨j, hj, rfl⟩ := decodeWord_of_mem_opcodeRows hb hwb
    rw [Except.ok.inj (hi.symm.trans hj)]
  · intro w noRow
    obtain ⟨i, hi⟩ | herror := decodeWord_cases w
    · exact absurd (row_of_decodeWord hi) (noRow _ (opcodeRow_mem_opcodeRows i))
    · exact herror

/-! ### Words in memory (rules R64, R65) -/

/-- The byte at the lower address is the high byte. -/
theorem wordOfBytes_toNat (hi lo : Byte) : (wordOfBytes hi lo).toNat = hi.toNat * 256 + lo.toNat := by
  rw [wordOfBytes, BitVec.toNat_append, ← Nat.shiftLeft_add_eq_or_of_lt lo.isLt, Nat.shiftLeft_eq]

/-- Settles O4: the two bytes make the instruction's word. -/
theorem decodeBytesReadsBigEndian : Obligations.DecodeBytesReadsBigEndian := by
  intro i hi lo rest h
  have word : wordOfBytes hi lo = encode i := BitVec.eq_of_toNat_eq ((wordOfBytes_toNat hi lo).trans h)
  rw [decodeBytes, word, decodeOfEncodeIsTheInstruction i]

/-- Settles O5: each word is evaluated. -/
theorem sampleWordsDecode : Obligations.SampleWordsDecode := by
  unfold Obligations.SampleWordsDecode
  decide

end Sys2Proof
end

section
/-!
PROOFS. What every instruction does: the halt of rule R240's table, or the writes of its form and the new `PC` of rule
R125 (40_cycle.md section 2, 60_exceptions.md section 1).
-/
namespace Sys2Proof.Machine

/-! ### When a form does not halt -/

theorem advanceHalt_eq_none_iff {s : State} {k : Nat} : advanceHalt s k = none ↔ s.pc.toNat + k ≤ pcMax := by
  simp [advanceHalt]

theorem targetHalt_eq_none_iff {target : Nat} : targetHalt target = none ↔ target % 2 = 0 := by
  simp [targetHalt]

theorem dataHalt_eq_none_iff {s : State} {n : Nat} :
    dataHalt s n = none ↔ (s.i.toNat + n ≤ memSize ∨ n = 0) ∧ s.pc.toNat + 2 ≤ pcMax := by
  unfold dataHalt
  split
  next h => simp; omega
  next h => rw [advanceHalt_eq_none_iff]; omega

theorem raisedHalt_callAddr_eq_none_iff {nnn : Addr} {s : State} :
    raisedHalt (.callAddr nnn) s = none ↔ s.sp.val < 16 ∧ s.pc.toNat + 2 ≤ pcMax ∧ nnn.toNat % 2 = 0 := by
  have hsp := s.sp.isLt
  simp only [raisedHalt]
  split
  next h => simp; omega
  split
  next h => simp; omega
  next h => rw [targetHalt_eq_none_iff]; omega

/-! ### The skip forms (rules R146 to R150) -/

theorem beq_eq_decide_toNat (a b : Byte) : (a == b) = decide (a.toNat = b.toNat) := by
  rw [Bool.eq_iff_iff, beq_iff_eq, decide_eq_true_iff, BitVec.toNat_eq]

theorem bne_eq_decide_toNat (a b : Byte) : (a != b) = decide (a.toNat ≠ b.toNat) := by
  rw [bne, beq_eq_decide_toNat, decide_not]

/-- What a skip form does depends on its condition alone. -/
theorem exec_of_skipCondition {i : Instr} {s : State} {b : Bool} (h : skipCondition i s = some b) :
    exec i s = s.skipIf b ∧ raisedHalt i s = advanceHalt s (if b then 4 else 2) ∧
      newPc i s = s.pc.toNat + (if b then 4 else 2) := by
  cases i <;> cases h
  case seVxKk | seVxVy =>
    exact ⟨congrArg s.skipIf (beq_eq_decide_toNat _ _), by simp only [raisedHalt, decide_eq_true_eq],
      by simp only [newPc, decide_eq_true_eq]⟩
  case sneVxKk | sneVxVy =>
    exact ⟨congrArg s.skipIf (bne_eq_decide_toNat _ _), by simp only [raisedHalt, decide_eq_true_eq],
      by simp only [newPc, decide_eq_true_eq]⟩
  case skpVx => exact ⟨rfl, rfl, rfl⟩
  case sknpVx x =>
    have negated : ∀ b : Bool, (if b = true then 2 else 4) = if (!b) = true then 4 else 2 := by decide
    exact ⟨rfl, by simp only [raisedHalt, negated], by simp only [newPc, negated]⟩

/-! ### `CALL`, `RET` and `LD Vx,K` (rules R143, R144, R224) -/

theorem exec_callAddr_of_room {nnn : Addr} {s : State} (room : s.sp.val < 16) (inMemory : s.pc.toNat + 2 ≤ pcMax)
    (even : nnn.toNat % 2 = 0) :
    exec (.callAddr nnn) s = .next { s with
      stack := s.stack.set s.sp.val (BitVec.ofNat 12 (s.pc.toNat + 2)) room
      sp := ⟨s.sp.val + 1, by omega⟩
      pc := nnn } := by
  simp only [exec, execCallAddr, State.push, dif_pos room, if_neg (Nat.not_lt.mpr inMemory)]
  exact State.transfer_even even

theorem exec_ret_of_pos {s : State} (h : 0 < s.sp.val) :
    exec .ret s = .next { s with sp := ⟨s.sp.val - 1, by omega⟩, pc := s.stack[s.sp.val - 1] } := by
  simp only [exec, execRet, State.pop, dif_pos h]

theorem exec_ldVxK_of_le {x : Reg} {s : State} (h : s.pc.toNat + 2 ≤ pcMax) :
    exec (.ldVxK x) s = .next { s with waitX := x, status := .waitingForKey } :=
  if_neg (Nat.not_lt.mpr h)

/-! ### The loops over memory (rules R195, R196, R211) -/

/-- What the loops over memory read, in a state that is otherwise fixed. -/
def State.data (s : State) : State := { State.reset with v := s.v, i := s.i, mem := s.mem, fb := s.fb }

theorem drawRows_data (s : State) (acc : Screen × Bool) (vx vy : Byte) (rs : List Nat) :
    drawRows s.data acc vx vy rs = drawRows s acc vx vy rs := by
  induction rs generalizing acc with
  | nil => rfl
  | cons r rest ih => exact ih _

theorem State.drawSprite_data (s : State) (vx vy : Byte) (n : Nat) : s.data.drawSprite vx vy n = s.drawSprite vx vy n :=
  drawRows_data s _ vx vy _

/-- The memory a store of registers leaves depends on the registers, `I` and the memory it begins with. -/
theorem storeRegs_data_mem (s0 : State) (regs : List Reg) {s t : State} (h : t.mem = s.mem) :
    (storeRegs s0.data t regs).mem = (storeRegs s0 s regs).mem := by
  induction regs generalizing s t with
  | nil => exact h
  | cons j rest ih => exact ih (congrArg (fun m => Memory.write m _ _) h)

/-- The registers a load of registers leaves depend on `I`, the memory and the registers it begins with. -/
theorem loadRegs_data_v (s0 : State) (regs : List Reg) {s t : State} (h : t.v = s.v) :
    (loadRegs s0.data t regs).v = (loadRegs s0 s regs).v := by
  induction regs generalizing s t with
  | nil => exact h
  | cons j rest ih => exact ih (congrArg (fun v => Vector.set v j.val _) h)

/-- `I` after the optional increment (rule R197). -/
def State.bumpedI (s : State) (x : Reg) : Addr :=
  if s.config.quirkLoadStoreIncI then BitVec.ofNat 12 (s.i.toNat + x.val + 1) else s.i

theorem State.bumpI_eq (s : State) (x : Reg) : s.bumpI x = { s with i := s.bumpedI x } := by
  unfold State.bumpI State.bumpedI
  split <;> rfl

theorem storeRegs_bumpI_eq (s : State) (x : Reg) (regs : List Reg) :
    (storeRegs s s regs).bumpI x = { s with mem := (storeRegs s.data s.data regs).mem, i := s.bumpedI x } := by
  obtain ⟨m, hm⟩ := storeRegs_eq s s regs
  rw [storeRegs_data_mem s regs (s := s) (t := s.data) rfl, hm, State.bumpI_eq]
  rfl

theorem loadRegs_bumpI_eq (s : State) (x : Reg) (regs : List Reg) :
    (loadRegs s s regs).bumpI x = { s with v := (loadRegs s.data s.data regs).v, i := s.bumpedI x } := by
  obtain ⟨w, hw⟩ := loadRegs_eq s s regs
  rw [loadRegs_data_v s regs (s := s) (t := s.data) rfl, hw, State.bumpI_eq]
  rfl

/-! ### The state an instruction leaves -/

/-- What each form writes when it completes, `PC` apart. -/
def State.written (s : State) (i : Instr) : State :=
  match i with
  | .cls => { s with fb := Screen.clear }
  | .ret => { s with sp := ⟨s.sp.val - 1, by omega⟩ }
  | .callAddr _ =>
    { s with stack := s.stack.setIfInBounds s.sp.val (BitVec.ofNat 12 (s.pc.toNat + 2)), sp := Fin.ofNat 17 (s.sp.val + 1) }
  | .ldVxKk x kk => s.writeV x kk
  | .addVxKk x kk => s.writeV x (s.readV x + kk)
  | .ldVxVy x y => s.writeV x (s.readV y)
  | .orVxVy x y => s.writeV x (s.readV x ||| s.readV y)
  | .andVxVy x y => s.writeV x (s.readV x &&& s.readV y)
  | .xorVxVy x y => s.writeV x (s.readV x ^^^ s.readV y)
  | .addVxVy x y => s.writeResultFlag x (s.readV x + s.readV y) (carry (s.readV x) (s.readV y))
  | .subVxVy x y => s.writeResultFlag x (s.readV x - s.readV y) (notBorrow (s.readV x) (s.readV y))
  | .shrVxVy x y => s.writeResultFlag x (s.shiftSource x y >>> 1) (shiftedOutRight (s.shiftSource x y))
  | .subnVxVy x y => s.writeResultFlag x (s.readV y - s.readV x) (notBorrow (s.readV y) (s.readV x))
  | .shlVxVy x y => s.writeResultFlag x (s.shiftSource x y <<< 1) (shiftedOutLeft (s.shiftSource x y))
  | .ldIAddr nnn => { s with i := nnn }
  | .rndVxKk x kk => { s.writeV x (Config.randomByte s.rndDraws &&& kk) with rndDraws := s.rndDraws + 1 }
  | .drwVxVyN x y n =>
    { s with fb := (s.data.drawSprite (s.readV x) (s.readV y) n.val).1 }.writeV 15
      (flagByte (s.data.drawSprite (s.readV x) (s.readV y) n.val).2)
  | .ldVxDt x => s.writeV x s.dt
  | .ldVxK x => { s with waitX := x, status := .waitingForKey }
  | .ldDtVx x => { s with dt := s.readV x }
  | .ldStVx x => { s with st := s.readV x }
  | .addIVx x => { s with i := BitVec.ofNat 12 (s.i.toNat + (s.readV x).toNat) }
  | .ldFVx x => { s with i := s.glyphAddress (s.readV x) }
  | .ldBVx x => { s with mem := s.mem.place s.i.toNat (decimalDigits (s.readV x)) }
  | .ldMemVx x => { s with mem := (storeRegs s.data s.data (regsThrough x)).mem, i := s.bumpedI x }
  | .ldVxMem x => { s with v := (loadRegs s.data s.data (regsThrough x)).v, i := s.bumpedI x }
  | .jpAddr _ | .jpV0Addr _ | .seVxKk _ _ | .sneVxKk _ _ | .seVxVy _ _ | .sneVxVy _ _ | .skpVx _ | .sknpVx _ => s

/-- The state after a form that completes. -/
def State.completed (s : State) (i : Instr) : State := { s.written i with pc := BitVec.ofNat 12 (newPc i s) }

/-- The state after an instruction: halted for the reason its form raises, or completed. -/
def State.executed (s : State) (i : Instr) : State :=
  match raisedHalt i s with
  | some r => s.raiseHalt r
  | none => s.completed i

theorem State.executed_of_raised {s : State} {i : Instr} {r : HaltReason} (h : raisedHalt i s = some r) :
    s.executed i = s.raiseHalt r := by
  rw [State.executed, h]

theorem State.executed_of_not_raised {s : State} {i : Instr} (h : raisedHalt i s = none) :
    s.executed i = s.completed i := by
  rw [State.executed, h]

theorem exec_completes_of_skip {i : Instr} {s : State} {b : Bool} (h : skipCondition i s = some b)
    (hw : s.written i = s) (noHalt : raisedHalt i s = none) : exec i s = .next (s.completed i) := by
  obtain ⟨hexec, hraised, hpc⟩ := exec_of_skipCondition h
  rw [hraised, advanceHalt_eq_none_iff] at noHalt
  rw [hexec, State.completed, hw, hpc]
  exact State.finish_of_le noHalt

/-- A form that raises no halt completes. -/
theorem exec_completes {i : Instr} {s : State} (noHalt : raisedHalt i s = none) : exec i s = .next (s.completed i) := by
  cases i
  case seVxKk | sneVxKk | seVxVy | sneVxVy | skpVx | sknpVx => exact exec_completes_of_skip rfl rfl noHalt
  case jpAddr nnn =>
    rw [State.completed, newPc, BitVec.ofNat_toNat, BitVec.setWidth_eq]
    exact State.transfer_even (targetHalt_eq_none_iff.mp noHalt)
  case jpV0Addr nnn =>
    have target : BitVec.ofNat 12 (newPc (.jpV0Addr nnn) s) = s.jumpV0Target nnn :=
      BitVec.eq_of_toNat_eq (by simp [newPc, State.jumpV0Target])
    have even := targetHalt_eq_none_iff.mp noHalt
    rw [State.completed, target]
    exact State.transfer_even (by simpa [State.jumpV0Target] using even)
  case callAddr nnn =>
    obtain ⟨room, inMemory, even⟩ := raisedHalt_callAddr_eq_none_iff.mp noHalt
    have slot : s.stack.set s.sp.val (BitVec.ofNat 12 (s.pc.toNat + 2)) room = (s.written (.callAddr nnn)).stack :=
      Vector.ext fun j hj => by simp [State.written, Vector.getElem_set, Vector.getElem_setIfInBounds]
    have count : (⟨s.sp.val + 1, by omega⟩ : Fin 17) = (s.written (.callAddr nnn)).sp :=
      Fin.ext (Nat.mod_eq_of_lt (by omega)).symm
    have target : BitVec.ofNat 12 (newPc (.callAddr nnn) s) = nnn := by simp [newPc]
    rw [exec_callAddr_of_room room inMemory even, State.completed, target, slot, count]
    rfl
  case ret =>
    have notEmpty : 0 < s.sp.val := by simpa [raisedHalt, Nat.pos_iff_ne_zero] using noHalt
    have target : BitVec.ofNat 12 (newPc .ret s) = s.stack[s.sp.val - 1] := by simp [newPc, notEmpty]
    rw [exec_ret_of_pos notEmpty, State.completed, target]
    rfl
  case ldVxK x =>
    rw [exec_ldVxK_of_le (advanceHalt_eq_none_iff.mp noHalt), State.completed, newPc, BitVec.ofNat_toNat,
      BitVec.setWidth_eq]
    rfl
  case ldBVx =>
    obtain ⟨inRam, inMemory⟩ := dataHalt_eq_none_iff.mp noHalt
    exact State.accessAtI_of_le inRam inMemory
  case drwVxVyN =>
    obtain ⟨inRam, inMemory⟩ := dataHalt_eq_none_iff.mp noHalt
    rw [State.completed, State.written, State.drawSprite_data]
    exact State.accessAtI_of_le inRam inMemory
  case ldMemVx x =>
    obtain ⟨inRam, inMemory⟩ := dataHalt_eq_none_iff.mp noHalt
    rw [State.completed, State.written, ← storeRegs_bumpI_eq]
    exact State.accessAtI_of_le inRam inMemory
  case ldVxMem x =>
    obtain ⟨inRam, inMemory⟩ := dataHalt_eq_none_iff.mp noHalt
    rw [State.completed, State.written, ← loadRegs_bumpI_eq]
    exact State.accessAtI_of_le inRam inMemory
  all_goals exact State.finish_of_le (advanceHalt_eq_none_iff.mp noHalt)

/-- An instruction's answer in every state: there is always a next state (rules R123, R241). -/
theorem exec_eq (i : Instr) (s : State) : exec i s = .next (s.executed i) := by
  cases h : raisedHalt i s with
  | some r =>
    have hans := exec_answers i s
    rw [h] at hans
    rw [State.executed_of_raised h]
    exact hans
  | none => rw [State.executed_of_not_raised h, exec_completes h]

theorem executed_of_next {i : Instr} {s t : State} (next : exec i s = .next t) : s.executed i = t :=
  Host.Outcome.next.inj ((exec_eq i s).symm.trans next)

/-- Everything an instruction can answer. -/
theorem exec_cases {i : Instr} {s t : State} (next : exec i s = .next t) :
    (∃ r, raisedHalt i s = some r ∧ t = s.raiseHalt r) ∨ (raisedHalt i s = none ∧ t = s.completed i) := by
  obtain rfl := executed_of_next next
  cases raised : raisedHalt i s with
  | some r => exact .inl ⟨r, rfl, State.executed_of_raised raised⟩
  | none => exact .inr ⟨rfl, State.executed_of_not_raised raised⟩

end Sys2Proof.Machine
end

section
/-!
PROOFS. Halting, the new `PC` and control transfer (40_cycle.md sections 2 and 4, 41_control_transfer.md, 60_exceptions.md
sections 1 and 2).
-/
namespace Sys2Proof.Machine

/-! ### Halting (rules R241, R242) -/

/-- Settles O10: `STATUS` is halted only where `raisedHalt` gives a reason, and there the answer is `raiseHalt`. -/
theorem haltingInstructionHasNoOtherEffect : Obligations.HaltingInstructionHasNoOtherEffect := by
  intro i s t r running next halted
  have raised := (exec_halted_iff running next r).mp halted
  rw [← executed_of_next next, State.executed_of_raised raised]
  rfl

/-! ### The new `PC` (rule R125) -/

/-- Where a form that completes goes: forward by at most 4, to an even target, or to an address from the stack. -/
theorem newPc_cases {i : Instr} {s : State} (noHalt : raisedHalt i s = none) :
    (∃ k, (k = 0 ∨ k = 2 ∨ k = 4) ∧ newPc i s = s.pc.toNat + k ∧ newPc i s < 4096) ∨
    (newPc i s % 2 = 0 ∧ newPc i s < 4096) ∨ ∃ j : Fin 16, newPc i s = s.stack[j].toNat := by
  have hmax : pcMax = 4094 := rfl
  have skip : ∀ b, skipCondition i s = some b → ∃ k, (k = 0 ∨ k = 2 ∨ k = 4) ∧ newPc i s = s.pc.toNat + k ∧
      newPc i s < 4096 := by
    intro b hb
    obtain ⟨-, hraised, hpc⟩ := exec_of_skipCondition hb
    rw [hraised, advanceHalt_eq_none_iff] at noHalt
    exact ⟨_, by cases b <;> simp, hpc, by omega⟩
  cases i
  case seVxKk | sneVxKk | seVxVy | sneVxVy | skpVx | sknpVx => exact .inl (skip _ rfl)
  case jpAddr nnn => exact .inr (.inl ⟨targetHalt_eq_none_iff.mp noHalt, nnn.isLt⟩)
  case jpV0Addr => exact .inr (.inl ⟨targetHalt_eq_none_iff.mp noHalt, Nat.mod_lt _ (by decide)⟩)
  case callAddr nnn => exact .inr (.inl ⟨(raisedHalt_callAddr_eq_none_iff.mp noHalt).2.2, nnn.isLt⟩)
  case ret =>
    have notEmpty : 0 < s.sp.val := by simpa [raisedHalt, Nat.pos_iff_ne_zero] using noHalt
    exact .inr (.inr ⟨⟨s.sp.val - 1, by omega⟩, by simp [newPc, notEmpty]⟩)
  case ldVxK => exact .inl ⟨0, .inl rfl, rfl, s.pc.isLt⟩
  case drwVxVyN | ldBVx | ldMemVx | ldVxMem =>
    have inMemory := (dataHalt_eq_none_iff.mp noHalt).2
    exact .inl ⟨2, .inr (.inl rfl), rfl, by simp only [newPc]; omega⟩
  all_goals
    have inMemory := advanceHalt_eq_none_iff.mp noHalt
    exact .inl ⟨2, .inr (.inl rfl), rfl, by simp only [newPc]; omega⟩

theorem State.completed_pc_toNat {i : Instr} {s : State} (noHalt : raisedHalt i s = none) :
    (s.completed i).pc.toNat = newPc i s := by
  have inRange : newPc i s < 4096 := by
    obtain ⟨k, -, -, h⟩ | ⟨-, h⟩ | ⟨j, h⟩ := newPc_cases noHalt
    · exact h
    · exact h
    · exact h ▸ (s.stack[j]).isLt
  rw [State.completed, BitVec.toNat_ofNat, Nat.mod_eq_of_lt inRange]

/-- Settles O11: an instruction that does not halt has completed, and `PC` then holds `newPc` unwrapped. -/
theorem newPcOfEveryForm : Obligations.NewPcOfEveryForm := by
  intro i s t running next notHalted
  have noHalt : raisedHalt i s = none := Option.eq_none_iff_forall_ne_some.mpr fun r raised =>
    notHalted ⟨r, (exec_halted_iff running next r).mpr raised⟩
  rw [← executed_of_next next, State.executed_of_not_raised noHalt, State.completed_pc_toNat noHalt]

/-! ### The end of memory (rule R124) -/

theorem advanceHalt_of_gt {s : State} {k : Nat} (h : s.pc.toNat + k > pcMax) :
    advanceHalt s k = some (.outOfBounds (s.pc.toNat + k)) := if_pos h

/-- An instruction that raises a halt changes `STATUS` alone. -/
theorem exec_of_raised {i : Instr} {s : State} {r : HaltReason} (h : raisedHalt i s = some r) :
    exec i s = .next { s with status := .halted r } := by
  rw [exec_eq, State.executed_of_raised h]
  rfl

theorem advanceHalt_last_slot {s : State} (h : s.pc = 0xFFE#12) : advanceHalt s 2 = some (.outOfBounds 4096) := by
  rw [advanceHalt, h]
  rfl

/-- A data access in the last slot halts with 4096, whether a data byte or the next `PC` is out of bounds. -/
theorem dataHalt_last_slot {s : State} (n : Nat) (h : s.pc = 0xFFE#12) : dataHalt s n = some (.outOfBounds 4096) := by
  rw [dataHalt, advanceHalt_last_slot h]
  exact ite_self _

/-- Settles O12: in the last slot `raisedHalt` of each such form is a check that fails, and a skip advances past 4094. -/
theorem lastSlotHaltsAllButTransfers : Obligations.LastSlotHaltsAllButTransfers := by
  refine ⟨fun i s last noSkip notRet notJp notCall notJpV0 => exec_of_raised ?_, fun i s b last skip => ?_,
    fun i s slot skip => ?_⟩
  · cases i
    case ret => exact absurd rfl notRet
    case jpAddr nnn => exact absurd rfl (notJp nnn)
    case callAddr nnn => exact absurd rfl (notCall nnn)
    case jpV0Addr nnn => exact absurd rfl (notJpV0 nnn)
    case seVxKk | sneVxKk | seVxVy | sneVxVy | skpVx | sknpVx => cases noSkip
    case drwVxVyN | ldBVx | ldMemVx | ldVxMem => exact dataHalt_last_slot _ last
    all_goals exact advanceHalt_last_slot last
  · apply exec_of_raised
    rw [(exec_of_skipCondition skip).2.1, advanceHalt, last]
    cases b <;> rfl
  · apply exec_of_raised
    rw [(exec_of_skipCondition skip).2.1, advanceHalt, slot]
    rfl

/-! ### Jumps (rules R141, R142, R145) -/

/-- Settles O13: both jumps are a transfer to their target. -/
theorem jumpsGoToEvenTargetsOnly : Obligations.JumpsGoToEvenTargetsOnly := by
  refine ⟨fun nnn s => ⟨State.transfer_even, State.transfer_odd⟩, fun nnn t s ht => ?_⟩
  have target : s.jumpV0Target nnn = t := BitVec.eq_of_toNat_eq (by rw [ht, State.jumpV0Target, BitVec.toNat_ofNat])
  have isTransfer : exec (.jpV0Addr nnn) s = s.transfer s t := by rw [← target]; rfl
  rw [isTransfer]
  exact ⟨State.transfer_even, State.transfer_odd⟩

/-- Settles O14: the transfer writes the address `PC` holds. -/
theorem jumpToSelfIsIdle : Obligations.JumpToSelfIsIdle :=
  fun _ even => State.transfer_even even

/-! ### Call and return (rules R143, R144, R248) -/

/-- Settles O15: the state after the call is written out, and its stack is the old one with one slot set. -/
theorem callPushesTheReturnAddress : Obligations.CallPushesTheReturnAddress := by
  intro nnn s room inMemory even
  refine ⟨_, exec_callAddr_of_room room inMemory even, rfl, rfl, ?_, fun j hj => ?_, rfl, State.readByte_congr rfl⟩
  · rw [Vector.getElem_set_self, advanced_toNat inMemory]
  · exact Vector.getElem_set_ne room j.isLt hj.symm

/-- Settles O16: `raisedHalt` makes the three checks in this order. -/
theorem callErrorsInPriorityOrder : Obligations.CallErrorsInPriorityOrder := by
  intro nnn s
  refine ⟨fun full => exec_of_raised (if_pos full), fun room past => exec_of_raised ?_,
    fun room inMemory odd => exec_of_raised ?_⟩
  · rw [raisedHalt, if_neg room.ne, if_pos past]
  · rw [raisedHalt, if_neg room.ne, if_neg (Nat.not_lt.mpr inMemory), targetHalt, if_pos odd, BitVec.ofNat_toNat,
      BitVec.setWidth_eq]

/-- Settles O18: the state after the return is written out; only `SP` and `PC` differ. -/
theorem returnGoesToThePoppedAddress : Obligations.ReturnGoesToThePoppedAddress := by
  intro s notEmpty
  exact ⟨_, exec_ret_of_pos notEmpty, rfl, Nat.succ_pred_eq_of_pos notEmpty, rfl, State.readByte_congr rfl⟩

/-- Settles O19: the return pops the slot the call has set. -/
theorem callThenReturnResumes : Obligations.CallThenReturnResumes := by
  intro nnn s room inMemory even
  refine ⟨_, _, exec_callAddr_of_room room inMemory even, exec_ret_of_pos (Nat.succ_pos _), ?_, rfl,
    State.readByte_congr rfl⟩
  simp [advanced_toNat inMemory]

/-! ### Skips (rule R150) and the key wait (rule R224) -/

/-- Settles O20: a skip form is `skipIf` of its condition. -/
theorem skipsMoveByFourOrTwo : Obligations.SkipsMoveByFourOrTwo := by
  intro i s b h
  rw [(exec_of_skipCondition h).1, State.skipIf]
  exact ⟨fun inMemory => ⟨_, State.finish_of_le inMemory, advanced_toNat inMemory, rfl, State.readByte_congr rfl⟩,
    State.finish_of_gt⟩

/-- Settles O38: a wait begins where `Advance` at its end could not fail. -/
theorem keyWaitSuspendsWithoutAdvancing : Obligations.KeyWaitSuspendsWithoutAdvancing :=
  fun _ _ => ⟨exec_ldVxK_of_le, fun past => exec_of_raised (advanceHalt_of_gt past)⟩

end Sys2Proof.Machine
end

section
/-!
PROOFS. The state table's columns "written by" and what no instruction reads (10_state.md sections 1, 5, 7 and 10).
-/
namespace Sys2Proof.Machine

/-! ### What a form that completes writes (rule R20) -/

theorem State.completed_fb (s : State) (i : Instr) :
    (s.completed i).fb = s.fb ∨ i = .cls ∨ ∃ x y n, i = .drwVxVyN x y n := by
  cases i
  case cls => exact .inr (.inl rfl)
  case drwVxVyN x y n => exact .inr (.inr ⟨x, y, n, rfl⟩)
  all_goals exact .inl rfl

theorem State.completed_sp_stack (s : State) (i : Instr) :
    ((s.completed i).sp = s.sp ∧ (s.completed i).stack = s.stack) ∨ i = .ret ∨ ∃ nnn, i = .callAddr nnn := by
  cases i
  case ret => exact .inr (.inl rfl)
  case callAddr nnn => exact .inr (.inr ⟨nnn, rfl⟩)
  all_goals exact .inl ⟨rfl, rfl⟩

theorem State.completed_stack (s : State) (i : Instr) :
    (s.completed i).stack = s.stack ∨ ∃ nnn, i = .callAddr nnn := by
  cases i
  case callAddr nnn => exact .inr ⟨nnn, rfl⟩
  all_goals exact .inl rfl

theorem State.completed_dt (s : State) (i : Instr) : (s.completed i).dt = s.dt ∨ ∃ x, i = .ldDtVx x := by
  cases i
  case ldDtVx x => exact .inr ⟨x, rfl⟩
  all_goals exact .inl rfl

theorem State.completed_st (s : State) (i : Instr) : (s.completed i).st = s.st ∨ ∃ x, i = .ldStVx x := by
  cases i
  case ldStVx x => exact .inr ⟨x, rfl⟩
  all_goals exact .inl rfl

theorem State.completed_waitX (s : State) (i : Instr) : (s.completed i).waitX = s.waitX ∨ ∃ x, i = .ldVxK x := by
  cases i
  case ldVxK x => exact .inr ⟨x, rfl⟩
  all_goals exact .inl rfl

theorem State.bumpedI_eq_or (s : State) (x : Reg) : s.bumpedI x = s.i ∨ s.config.quirkLoadStoreIncI = true := by
  unfold State.bumpedI
  split
  next h => exact .inr h
  next => exact .inl rfl

theorem State.completed_i (s : State) (i : Instr) :
    (s.completed i).i = s.i ∨ (∃ nnn, i = .ldIAddr nnn) ∨ (∃ x, i = .addIVx x ∨ i = .ldFVx x) ∨
      s.config.quirkLoadStoreIncI = true ∧ ∃ x, i = .ldMemVx x ∨ i = .ldVxMem x := by
  cases i
  case ldIAddr nnn => exact .inr (.inl ⟨nnn, rfl⟩)
  case addIVx x => exact .inr (.inr (.inl ⟨x, .inl rfl⟩))
  case ldFVx x => exact .inr (.inr (.inl ⟨x, .inr rfl⟩))
  case ldMemVx x => exact (s.bumpedI_eq_or x).imp_right fun quirk => .inr (.inr ⟨quirk, x, .inl rfl⟩)
  case ldVxMem x => exact (s.bumpedI_eq_or x).imp_right fun quirk => .inr (.inr ⟨quirk, x, .inr rfl⟩)
  all_goals exact .inl rfl

theorem State.completed_mem (s : State) (i : Instr) :
    (s.completed i).mem = s.mem ∨ ∃ x, i = .ldBVx x ∨ i = .ldMemVx x := by
  cases i
  case ldBVx x => exact .inr ⟨x, .inl rfl⟩
  case ldMemVx x => exact .inr ⟨x, .inr rfl⟩
  all_goals exact .inl rfl

theorem State.completed_rndDraws (s : State) (i : Instr) :
    (s.completed i).rndDraws = s.rndDraws ∨ ∃ x kk, i = .rndVxKk x kk := by
  cases i
  case rndVxKk x kk => exact .inr ⟨x, kk, rfl⟩
  all_goals exact .inl rfl

/-- The inputs, the sequencer's budgets and the pending inputs are what they were. -/
def sameInputs (s t : State) : Prop :=
  t.keys = s.keys ∧ t.config = s.config ∧ t.run = s.run ∧ t.cycleBudget = s.cycleBudget ∧
    t.tickBudget = s.tickBudget ∧ t.pending = s.pending

theorem State.completed_sameInputs (s : State) (i : Instr) : sameInputs s (s.completed i) := by
  cases i <;> exact ⟨rfl, rfl, rfl, rfl, rfl, rfl⟩

theorem exec_sameInputs {i : Instr} {s t : State} (h : exec i s = .next t) : sameInputs s t := by
  obtain ⟨r, -, rfl⟩ | ⟨-, rfl⟩ := exec_cases h
  · exact ⟨rfl, rfl, rfl, rfl, rfl, rfl⟩
  · exact s.completed_sameInputs i

theorem State.completed_status (s : State) (i : Instr) :
    (s.completed i).status = (match i with | .ldVxK _ => .waitingForKey | _ => s.status) := by
  cases i <;> rfl

/-- Settles O49: a halt writes `STATUS` alone, and a form that completes writes only what `State.written` gives it. -/
theorem stateIsWrittenOnlyByTheFormsNamed : Obligations.StateIsWrittenOnlyByTheFormsNamed := by
  intro i s t next
  obtain ⟨r, -, rfl⟩ | ⟨-, rfl⟩ := exec_cases next
  · exact ⟨.inl rfl, .inl ⟨rfl, rfl⟩, .inl rfl, .inl rfl, .inl rfl, .inl rfl, .inl rfl,
      .inl (State.readByte_congr rfl), .inl rfl, rfl, rfl, rfl, rfl, rfl, rfl⟩
  · exact ⟨s.completed_fb i, s.completed_sp_stack i, s.completed_stack i, s.completed_dt i, s.completed_st i,
      s.completed_waitX i, s.completed_i i, (s.completed_mem i).imp_left State.readByte_congr,
      s.completed_rndDraws i, s.completed_sameInputs i⟩

/-! ### What no instruction reads (rules R28, R32, R44) -/

/-- Two states in which a form raises the same halt are related after it if they are after each halt and after its
completion. -/
theorem State.executed_related {R : State → State → Prop} {s s' : State} {i : Instr}
    (sameHalt : raisedHalt i s' = raisedHalt i s) (halted : ∀ r, R (s'.raiseHalt r) (s.raiseHalt r))
    (completed : R (s'.completed i) (s.completed i)) : R (s'.executed i) (s.executed i) := by
  cases raised : raisedHalt i s with
  | some r =>
    rw [State.executed_of_raised raised, State.executed_of_raised (sameHalt.trans raised)]
    exact halted r
  | none =>
    rw [State.executed_of_not_raised raised, State.executed_of_not_raised (sameHalt.trans raised)]
    exact completed

theorem State.executed_withSt (s : State) (i : Instr) (b : Byte) :
    ∃ c, State.executed { s with st := b } i = { s.executed i with st := c } :=
  State.executed_related (R := fun t' t => ∃ c, t' = { t with st := c }) rfl (fun _ => ⟨b, rfl⟩)
    ⟨(State.completed { s with st := b } i).st, by cases i <;> rfl⟩

theorem State.executed_withWaitX (s : State) (i : Instr) (w : Reg) :
    ∃ c, State.executed { s with waitX := w } i = { s.executed i with waitX := c } :=
  State.executed_related (R := fun t' t => ∃ c, t' = { t with waitX := c }) rfl (fun _ => ⟨w, rfl⟩)
    ⟨(State.completed { s with waitX := w } i).waitX, by cases i <;> rfl⟩

theorem State.executed_withKeys (s : State) {i : Instr} (k : BitVec 16)
    (notKeySkip : ∀ x, i ≠ .skpVx x ∧ i ≠ .sknpVx x) :
    State.executed { s with keys := k } i = { s.executed i with keys := k } := by
  cases i
  case skpVx x => exact absurd rfl (notKeySkip x).1
  case sknpVx x => exact absurd rfl (notKeySkip x).2
  all_goals exact State.executed_related (R := fun t' t => t' = { t with keys := k }) rfl (fun _ => rfl) rfl

/-- Settles O50: the halt raised, the new `PC` and the writes of a form are computed from the other fields. -/
theorem soundTimerLatchAndKeysAreNotRead : Obligations.SoundTimerLatchAndKeysAreNotRead := by
  intro i s t next
  obtain rfl := executed_of_next next
  refine ⟨fun b => ?_, fun w => ?_, fun k notKeySkip => ?_⟩
  · obtain ⟨c, hc⟩ := s.executed_withSt i b
    exact ⟨c, by rw [exec_eq, hc]⟩
  · obtain ⟨c, hc⟩ := s.executed_withWaitX i w
    exact ⟨c, by rw [exec_eq, hc]⟩
  · rw [exec_eq, s.executed_withKeys k notKeySkip]

end Sys2Proof.Machine
end

section
/-!
PROOFS. The cycle and the other events, one step at a time (40_cycle.md section 1, 45_keypad_timers.md, 60_exceptions.md,
70_reset_and_hazards.md section 1).
-/
namespace Sys2Proof.Machine

/-! ### A cycle request (rules R120 to R123, R126) -/

theorem State.fetch_of_gt {s : State} (h : s.pc.toNat > pcMax) : s.fetch = .error (.outOfBounds 4096) := by
  have hpc : s.pc.toNat = 4095 := by
    have hmax : pcMax = 4094 := rfl
    omega
  rw [State.fetch, hpc]
  rfl

theorem State.cycle_of_fetch_past {s : State} (running : s.status = .running) (past : s.pc.toNat > pcMax) :
    s.cycle = .next (s.raiseHalt (.outOfBounds 4096)) := by
  simp only [State.cycle, running, State.fetch_of_gt past, State.halt]

theorem State.cycle_of_illegal {s : State} (running : s.status = .running) (inMemory : s.pc.toNat ≤ pcMax)
    (illegal : ∀ i, decodeWord s.wordAtPc ≠ .ok i) : s.cycle = .next (s.raiseHalt (.unknownOpcode s.wordAtPc)) := by
  have rejected : decodeWord s.wordAtPc = .error (.unknownOpcode s.wordAtPc) :=
    (decodeWord_cases _).resolve_left fun ⟨i, hi⟩ => illegal i hi
  have fetched : s.fetch = .ok s.wordAtPc := State.fetch_of_le inMemory
  simp only [State.cycle, running, fetched, rejected, State.halt]

theorem State.cycle_next (s : State) : ∃ t, s.cycle = .next t := by
  by_cases running : s.status = .running
  · by_cases past : s.pc.toNat > pcMax
    · exact ⟨_, State.cycle_of_fetch_past running past⟩
    · have inMemory := Nat.not_lt.mp past
      by_cases legal : ∃ i, decodeWord s.wordAtPc = .ok i
      · obtain ⟨i, hi⟩ := legal
        exact ⟨s.executed i, by rw [State.cycle_of_decoded running (State.fetch_of_le inMemory) hi, exec_eq]⟩
      · exact ⟨_, State.cycle_of_illegal running inMemory (not_exists.mp legal)⟩
  · exact ⟨s, State.cycle_of_not_running running⟩

theorem State.issue_cycle_of_not_running {s : State} (h : s.status ≠ .running) : s.issue .cycle = .next s := by
  cases hrun : s.run with
  | false => exact State.issue_of_paused hrun _
  | true => rw [State.issue_cycle hrun, State.cycle_of_not_running h]

theorem step_of_pending_cycle (s : State) (rest : List Input) :
    step { s with pending := .request .cycle :: rest } = State.issue { s with pending := rest } .cycle := rfl

theorem step_of_running_pending_cycle {s : State} (run : s.run = true) (rest : List Input) :
    step { s with pending := .request .cycle :: rest } = State.cycle { s with pending := rest } :=
  State.issue_cycle (s := { s with pending := rest }) run

theorem step_of_none_pending {s : State} (h : s.pending = []) : step s = s.issue .cycle := by
  simp only [step, State.nextEvent, h]

/-- Settles O6: in either state the request is a cycle whose fetch is the word at `PC`. -/
theorem stepRunsTheDecodedInstruction : Obligations.StepRunsTheDecodedInstruction := by
  rintro s i ⟨nonePending, sequencerRuns, engineRuns, pcInRange⟩ decoded
  refine ⟨?_, fun rest => ?_⟩
  · rw [step_of_no_pending nonePending sequencerRuns]
    exact State.cycle_of_decoded engineRuns (State.fetch_of_le pcInRange) decoded
  · rw [step_of_running_pending_cycle sequencerRuns]
    exact State.cycle_of_decoded engineRuns (State.fetch_of_le pcInRange) decoded

theorem step_of_illegal {s : State} (ready : s.readyToExecute) (illegal : ∀ i, decodeWord s.wordAtPc ≠ .ok i) :
    step s = .next { s with status := .halted (.unknownOpcode s.wordAtPc) } ∧
    ∀ rest : List Input, step { s with pending := .request .cycle :: rest } =
      .next { s with pending := rest, status := .halted (.unknownOpcode s.wordAtPc) } := by
  obtain ⟨nonePending, sequencerRuns, engineRuns, pcInRange⟩ := ready
  refine ⟨?_, fun rest => ?_⟩
  · rw [step_of_no_pending nonePending sequencerRuns]
    exact State.cycle_of_illegal engineRuns pcInRange illegal
  · rw [step_of_running_pending_cycle sequencerRuns]
    exact State.cycle_of_illegal (s := { s with pending := rest }) engineRuns pcInRange illegal

/-- Settles O7: an illegal word halts in either state, and the word of two zero bytes is one. -/
theorem illegalWordHaltsCarryingIt : Obligations.IllegalWordHaltsCarryingIt := by
  refine ⟨fun s ready illegal => step_of_illegal ready illegal, fun s ready hi lo => ?_⟩
  have word : s.wordAtPc = 0x0000#16 := by rw [State.wordAtPc, hi, lo]; rfl
  have illegal : ∀ i, decodeWord s.wordAtPc ≠ .ok i := fun i decoded => by rw [word] at decoded; cases decoded
  rw [← word]
  exact step_of_illegal ready illegal

/-- Settles O9: an engine that does not run answers the request with its own state. -/
theorem cycleChangesNothingUnlessRunning : Obligations.CycleChangesNothingUnlessRunning := by
  intro s notRunning
  refine ⟨fun nonePending => ?_, fun rest => ?_⟩
  · rw [step_of_none_pending nonePending, State.issue_cycle_of_not_running notRunning]
  · rw [step_of_pending_cycle]
    exact State.issue_cycle_of_not_running notRunning

/-! ### Every step (rules R240, R241) -/

theorem State.issue_next (s : State) (r : Request) : ∃ t, s.issue r = .next t := by
  cases hrun : s.run with
  | false => exact ⟨s, State.issue_of_paused hrun r⟩
  | true =>
    cases r with
    | tick => exact ⟨s.tick, State.issue_tick hrun⟩
    | cycle =>
      rw [State.issue_cycle hrun]
      exact s.cycle_next

/-- Settles O8: a request has a next state, and every other input is a function of the state. -/
theorem everyStepHasANextState : Obligations.EveryStepHasANextState := by
  intro s
  cases hp : s.pending with
  | nil =>
    rw [step_of_none_pending hp]
    exact s.issue_next .cycle
  | cons input rest =>
    rw [step_of_pending hp]
    cases input with
    | request r => exact State.issue_next _ r
    | keyPress k => exact ⟨_, rfl⟩
    | keysUpdate k => exact ⟨_, rfl⟩
    | reset => exact ⟨_, rfl⟩
    | setRun b => exact ⟨_, rfl⟩
    | elapse dt order => exact ⟨_, rfl⟩

/-! ### Key press, tick, reset (rules R225, R260, R280) -/

theorem State.keyPress_of_waiting {s : State} (h : s.status = .waitingForKey) (k : Key) :
    s.keyPress k =
      { s.writeV s.waitX (k.setWidth 8) with pc := BitVec.ofNat 12 (s.pc.toNat + 2), status := .running } := by
  simp only [State.keyPress, h]

theorem State.keyPress_of_not_waiting {s : State} (h : s.status ≠ .waitingForKey) (k : Key) : s.keyPress k = s := by
  unfold State.keyPress
  split
  · exact absurd ‹_› h
  · rfl
  · rfl

/-- Settles O39: the key press acts on the state without that input, by its `STATUS`. -/
theorem keyPressCompletesAWaitOnly : Obligations.KeyPressCompletesAWaitOnly := by
  intro s k rest hp
  have delivered : step s = .next (State.keyPress { s with pending := rest } k) := step_of_pending hp
  constructor
  · intro waiting inMemory
    rw [State.keyPress_of_waiting (s := { s with pending := rest }) waiting] at delivered
    refine ⟨_, delivered, ?_, fun z hz => State.readV_writeV_other _ _ hz, advanced_toNat inMemory, rfl, rfl⟩
    have code : (State.readV (State.writeV s s.waitX (k.setWidth 8)) s.waitX).toNat = k.toNat := by
      rw [State.readV_writeV_same, BitVec.toNat_setWidth_of_le (by decide)]
    exact code
  · intro notWaiting
    rw [delivered, State.keyPress_of_not_waiting (s := { s with pending := rest }) notWaiting]

/-- Settles O41: the state after the step is `State.tick` of the state without that request. -/
theorem tickLowersBothTimersAlone : Obligations.TickLowersBothTimersAlone := by
  intro s rest run hp
  have delivered : step s = .next (State.tick { s with pending := rest }) :=
    (step_of_pending hp).trans (State.issue_tick (s := { s with pending := rest }) run)
  exact ⟨_, delivered, countDown_toNat s.dt, countDown_toNat s.st, rfl⟩

theorem reset_readV (x : Reg) : State.reset.readV x = 0#8 := by
  simp [State.readV, State.reset]

theorem reset_stack (j : Fin 16) : State.reset.stack[j] = 0#12 := by
  simp [State.reset]

/-- Settles O42: the state after the step is `State.resetEvent` of the state without that input. -/
theorem resetClearsTheBlockAndKeepsMemory : Obligations.ResetClearsTheBlockAndKeepsMemory := by
  intro s rest hp
  have delivered : step s = .next (State.resetEvent { s with pending := rest }) := step_of_pending hp
  exact ⟨_, delivered, reset_readV, rfl, rfl, reset_stack, rfl, rfl, Screen.pixel_clear, rfl, rfl, rfl, rfl,
    State.readByte_congr rfl, rfl, rfl, rfl, rfl, rfl, rfl⟩

/-- Settles O43: the values are those of the fields of `State.reset`. -/
theorem resetStateHasTheGivenValues : Obligations.ResetStateHasTheGivenValues :=
  ⟨reset_readV, rfl, rfl, reset_stack, rfl, rfl, Screen.pixel_clear, rfl, rfl, rfl⟩

end Sys2Proof.Machine
end

section
/-!
PROOFS. What every step keeps (10_state.md sections 1, 8 and 10, 60_exceptions.md section 6) and what it does to `STATUS`
(10_state.md section 7).
-/
namespace Sys2Proof.Machine

/-! ### Everything a step can do -/

theorem step_cases {s t : State} (h : step s = .next t) :
    (s.pending = [] ∧ s.issue .cycle = .next t) ∨
    ∃ input rest, s.pending = input :: rest ∧ State.accept { s with pending := rest } input = .next t := by
  cases hp : s.pending with
  | nil => exact .inl ⟨rfl, step_of_none_pending hp ▸ h⟩
  | cons input rest => exact .inr ⟨input, rest, rfl, (step_of_pending hp).symm.trans h⟩

/-- A request is dropped, ticks the timers, halts the engine or runs an instruction. -/
theorem State.issue_cases {s t : State} {r : Request} (h : s.issue r = .next t) :
    t = s ∨ t = s.tick ∨ (∃ reason, t = s.raiseHalt reason) ∨ s.status = .running ∧ ∃ i, exec i s = .next t := by
  cases hrun : s.run with
  | false =>
    rw [State.issue_of_paused hrun] at h
    exact .inl (Host.Outcome.next.inj h).symm
  | true =>
    cases r with
    | tick =>
      rw [State.issue_tick hrun] at h
      exact .inr (.inl (Host.Outcome.next.inj h).symm)
    | cycle =>
      rw [State.issue_cycle hrun] at h
      obtain ⟨-, idle⟩ | ⟨-, halted⟩ | ⟨running, _, i, -, -, executed⟩ := State.cycle_cases h
      · exact .inl idle
      · exact .inr (.inr (.inl halted))
      · exact .inr (.inr (.inr ⟨running, i, executed⟩))

/-- A predicate that every event keeps is kept by every step. -/
theorem step_keeps {P : State → Prop} (delivered : ∀ s rest, P s → P { s with pending := rest })
    (issue : ∀ s t r, P s → s.issue r = .next t → P t) (keyPress : ∀ s k, P s → P (s.keyPress k))
    (keysUpdate : ∀ s k, P s → P (s.keysUpdate k)) (reset : ∀ s, P s → P s.resetEvent)
    (setRun : ∀ s on, P s → P { s with run := on }) (elapse : ∀ s dt order, P s → P (s.elapse dt order))
    {s t : State} (hs : P s) (h : step s = .next t) : P t := by
  obtain ⟨-, hcycle⟩ | ⟨input, rest, -, haccept⟩ := step_cases h
  · exact issue s t .cycle hs hcycle
  have hs' := delivered s rest hs
  cases input with
  | request r => exact issue _ t r hs' haccept
  | keyPress k => exact Host.Outcome.next.inj haccept ▸ keyPress _ k hs'
  | keysUpdate k => exact Host.Outcome.next.inj haccept ▸ keysUpdate _ k hs'
  | reset => exact Host.Outcome.next.inj haccept ▸ reset _ hs'
  | setRun on => exact Host.Outcome.next.inj haccept ▸ setRun _ on hs'
  | elapse dt order => exact Host.Outcome.next.inj haccept ▸ elapse _ dt order hs'

/-! ### The inputs (rules R44, R48, R52) -/

theorem sameInputs.refl (s : State) : sameInputs s s := ⟨rfl, rfl, rfl, rfl, rfl, rfl⟩

theorem State.issue_sameInputs {s t : State} {r : Request} (h : s.issue r = .next t) : sameInputs s t := by
  obtain rfl | rfl | ⟨reason, rfl⟩ | ⟨-, i, executed⟩ := State.issue_cases h
  · exact sameInputs.refl _
  · exact sameInputs.refl s
  · exact sameInputs.refl s
  · exact exec_sameInputs executed

theorem State.keyPress_sameInputs (s : State) (k : Key) : sameInputs s (s.keyPress k) := by
  by_cases waiting : s.status = .waitingForKey
  · rw [State.keyPress_of_waiting waiting]; exact sameInputs.refl s
  · rw [State.keyPress_of_not_waiting waiting]; exact sameInputs.refl s

/-- What an iteration writes: the budgets and the pending inputs. -/
theorem State.elapse_eq (s : State) (dt : Rat) (order : List Request) :
    s.elapse dt order = { s with
      cycleBudget := (s.elapse dt order).cycleBudget
      tickBudget := (s.elapse dt order).tickBudget
      pending := (s.elapse dt order).pending } := by
  unfold State.elapse
  split <;> rfl

/-- Settles O48: a request and a key press keep the inputs, and every other input is written out. -/
theorem inputsChangeOnlyFromOutside : Obligations.InputsChangeOnlyFromOutside := by
  intro s t h
  have kept : ∀ rest, sameInputs { s with pending := rest } t →
      t.config = s.config ∧ (t.keys = s.keys ∨ ∃ k rest, s.pending = .keysUpdate k :: rest) ∧
      (t.run = s.run ∨ ∃ b rest, s.pending = .setRun b :: rest) :=
    fun _ ⟨keys, config, run, _⟩ => ⟨config, .inl keys, .inl run⟩
  obtain ⟨-, hcycle⟩ | ⟨input, rest, hp, haccept⟩ := step_cases h
  · exact kept s.pending (State.issue_sameInputs hcycle)
  cases input with
  | request r => exact kept rest (State.issue_sameInputs haccept)
  | keyPress k => exact kept rest (Host.Outcome.next.inj haccept ▸ State.keyPress_sameInputs _ k)
  | keysUpdate k =>
    obtain rfl := Host.Outcome.next.inj haccept
    exact ⟨rfl, .inr ⟨k, rest, hp⟩, .inl rfl⟩
  | reset =>
    obtain rfl := Host.Outcome.next.inj haccept
    exact ⟨rfl, .inl rfl, .inl rfl⟩
  | setRun on =>
    obtain rfl := Host.Outcome.next.inj haccept
    exact ⟨rfl, .inl rfl, .inr ⟨on, rest, hp⟩⟩
  | elapse dt order =>
    obtain rfl := Host.Outcome.next.inj haccept
    rw [State.elapse_eq]
    exact ⟨rfl, .inl rfl, .inl rfl⟩

/-! ### The sequencer (rules R264 to R266) -/

theorem State.BudgetInv.of_same {s t : State} (h : s.BudgetInv) (config : t.config = s.config)
    (cycle : t.cycleBudget = s.cycleBudget) (tick : t.tickBudget = s.tickBudget) : t.BudgetInv :=
  ⟨config ▸ h.configWf, cycle ▸ h.cycleFraction, tick ▸ h.tickFraction⟩

theorem State.BudgetInv.of_sameInputs {s t : State} (h : s.BudgetInv) (same : sameInputs s t) : t.BudgetInv := by
  obtain ⟨-, config, -, cycle, tick, -⟩ := same
  exact h.of_same config cycle tick

theorem State.BudgetInv.ips_pos {s : State} (h : s.BudgetInv) : 0 < s.config.ips :=
  of_decide_eq_true (Bool.and_eq_true_iff.mp h.configWf).2

theorem State.elapse_of_paused {s : State} (h : s.run = false) (dt : Rat) (order : List Request) :
    s.elapse dt order = s := by
  simp only [State.elapse, h, Bool.false_eq_true, if_false]

/-- An iteration leaves each budget a fraction: what the requests it pays for leave (rule R265). -/
theorem State.BudgetInv.elapse {s : State} (h : s.BudgetInv) (dt : Rat) (order : List Request) :
    (s.elapse dt order).BudgetInv := by
  cases hrun : s.run with
  | false => rwa [State.elapse_of_paused hrun]
  | true =>
    simp only [State.elapse, hrun, if_true]
    exact ⟨h.configWf, requestsIn_leaves_fraction (grownBudget_nonneg h.cycleFraction.1 h.ips_pos.le),
      requestsIn_leaves_fraction (grownBudget_nonneg h.tickFraction.1 (Nat.cast_nonneg tickHz))⟩

/-- Settles O47: an iteration and a reset leave a fraction, and every other event leaves the budgets. -/
theorem everyStepKeepsTheBudgetsFractions : Obligations.EveryStepKeepsTheBudgetsFractions := by
  intro s t hs h
  refine step_keeps (P := State.BudgetInv) (fun s rest hs => hs.of_same rfl rfl rfl)
    (fun s t r hs hissue => hs.of_sameInputs (State.issue_sameInputs hissue))
    (fun s k hs => hs.of_sameInputs (s.keyPress_sameInputs k)) (fun s k hs => hs.of_same rfl rfl rfl) (fun s hs => ?_)
    (fun s on hs => hs.of_same rfl rfl rfl) (fun s dt order hs => hs.elapse dt order) hs h
  exact ⟨hs.configWf, ⟨le_rfl, one_pos⟩, ⟨le_rfl, one_pos⟩⟩

theorem grownBudget_of_nonneg {budget dt rate : Rat} (h : 0 ≤ dt) : grownBudget budget dt rate = budget + dt * rate := by
  rw [grownBudget, if_pos h]

theorem State.elapse_of_running {s : State} (run : s.run = true) {dt : Rat} (hdt : 0 ≤ dt) (order : List Request) :
    s.elapse dt order = { s with
      cycleBudget := s.cycleBudget + dt * s.config.ips - requestsIn (s.cycleBudget + dt * s.config.ips)
      tickBudget := s.tickBudget + dt * tickHz - requestsIn (s.tickBudget + dt * tickHz)
      pending := (interleave order (requestsIn (s.cycleBudget + dt * s.config.ips))
        (requestsIn (s.tickBudget + dt * tickHz))).map .request ++ s.pending } := by
  rw [State.elapse, if_pos run, grownBudget_of_nonneg hdt, grownBudget_of_nonneg hdt]

/-- Settles O51: the requests are the interleaving of the whole numbers taken off the two grown budgets. -/
theorem iterationIssuesWhatTheBudgetsPayFor : Obligations.IterationIssuesWhatTheBudgetsPayFor := by
  intro s dt order rest hinv run hdt hp
  have delivered : step s = .next (State.elapse { s with pending := rest } dt order) := step_of_pending hp
  have fractions := State.BudgetInv.elapse (s := { s with pending := rest }) (hinv.of_same rfl rfl rfl) dt order
  rw [State.elapse_of_running (s := { s with pending := rest }) run hdt] at delivered fractions
  obtain ⟨cycles, ticks⟩ := interleave_counts order (requestsIn (s.cycleBudget + dt * s.config.ips))
    (requestsIn (s.tickBudget + dt * tickHz))
  refine ⟨_, _, delivered, rfl, ?_, ?_, fractions.cycleFraction.1, fractions.cycleFraction.2, fractions.tickFraction.1,
    fractions.tickFraction.2, rfl⟩
  · rw [cycles]; exact add_sub_cancel _ _
  · rw [ticks]; exact add_sub_cancel _ _

/-- Settles O52: a paused sequencer issues nothing and lets no time pass. -/
theorem pausedMachineIsFrozen : Obligations.PausedMachineIsFrozen := by
  intro s paused
  refine ⟨fun nonePending => ?_, fun input rest hp fromSequencer => ?_⟩
  · rw [step_of_none_pending nonePending, State.issue_of_paused paused]
  · rw [step_of_pending hp]
    obtain ⟨r, rfl⟩ | ⟨dt, order, rfl⟩ := fromSequencer
    · exact State.issue_of_paused (s := { s with pending := rest }) paused r
    · exact congrArg _ (State.elapse_of_paused (s := { s with pending := rest }) paused dt order)

/-! ### The invariants (rule R33) -/

/-- The invariants depend on `PC`, the stack, `STATUS` and memory. -/
theorem State.Inv.of_same {s t : State} (h : s.Inv) (pc : t.pc = s.pc) (stack : t.stack = s.stack)
    (wait : t.status = .waitingForKey → s.status = .waitingForKey) (mem : t.mem = s.mem) : t.Inv where
  pcEven := pc ▸ h.pcEven
  stackEven := stack ▸ h.stackEven
  waitCanComplete := fun waiting => pc ▸ h.waitCanComplete (wait waiting)
  memCanonical := mem ▸ h.memCanonical

theorem State.Inv.raiseHalt {s : State} (h : s.Inv) (r : HaltReason) : (s.raiseHalt r).Inv :=
  h.of_same rfl rfl (fun waiting => by cases waiting) rfl

/-- A target is even by the check of a transfer, by the stack's invariant, or at an even distance from `PC`. -/
theorem State.Inv.newPc_even {s : State} (h : s.Inv) {i : Instr} (noHalt : raisedHalt i s = none) :
    newPc i s % 2 = 0 := by
  have pcEven : s.pc.toNat % 2 = 0 := h.pcEven
  obtain ⟨k, hk, hpc, -⟩ | ⟨even, -⟩ | ⟨j, hj⟩ := newPc_cases noHalt
  · omega
  · exact even
  · exact hj ▸ h.stackEven j

/-- A return address is even because `PC` is. -/
theorem State.Inv.completed_stackEven {s : State} (h : s.Inv) (i : Instr) (j : Fin 16) :
    evenAddr (s.completed i).stack[j] := by
  have pcEven : s.pc.toNat % 2 = 0 := h.pcEven
  obtain same | ⟨nnn, rfl⟩ := s.completed_stack i
  · rw [same]; exact h.stackEven j
  · have returnEven : evenAddr (BitVec.ofNat 12 (s.pc.toNat + 2)) := by
      rw [evenAddr, BitVec.toNat_ofNat]; omega
    simp only [State.completed, State.written, Fin.getElem_fin, Vector.getElem_setIfInBounds]
    split
    · exact returnEven
    · exact h.stackEven j

/-- A store that completes has written RAM addresses alone. -/
theorem State.Inv.completed_memCanonical {s : State} (h : s.Inv) {i : Instr} (noHalt : raisedHalt i s = none) :
    (s.completed i).mem.wf = true := by
  obtain same | ⟨x, rfl | rfl⟩ := s.completed_mem i
  · rw [same]; exact h.memCanonical
  · have inRam := (dataHalt_eq_none_iff.mp noHalt).1
    exact Memory.wf_place (inRam.resolve_right (by decide)) h.memCanonical
  · have inRam := (dataHalt_eq_none_iff.mp noHalt).1
    refine storeRegs_wf s.data s.data (regsThrough x) (fun j hj => ?_) h.memCanonical
    have hle := (mem_regsThrough x j).mp hj
    have hi : s.data.i.toNat = s.i.toNat := rfl
    omega

/-- A wait begins where it can complete (rule R224). -/
theorem State.completed_waitCanComplete {s : State} {i : Instr} (running : s.status = .running)
    (noHalt : raisedHalt i s = none) (waiting : (s.completed i).status = .waitingForKey) :
    (s.completed i).pc.toNat + 2 ≤ pcMax := by
  rw [State.completed_pc_toNat noHalt]
  rw [State.completed_status, running] at waiting
  cases i
  case ldVxK x => exact advanceHalt_eq_none_iff.mp noHalt
  all_goals cases waiting

theorem State.Inv.exec {s t : State} {i : Instr} (h : s.Inv) (running : s.status = .running)
    (next : exec i s = .next t) : t.Inv := by
  obtain ⟨r, -, rfl⟩ | ⟨noHalt, rfl⟩ := exec_cases next
  · exact h.raiseHalt r
  · have pcEven : evenAddr (s.completed i).pc := by
      rw [evenAddr, State.completed_pc_toNat noHalt]
      exact h.newPc_even noHalt
    exact ⟨pcEven, h.completed_stackEven i, State.completed_waitCanComplete running noHalt,
      h.completed_memCanonical noHalt⟩

theorem State.Inv.issue {s t : State} {r : Request} (h : s.Inv) (next : s.issue r = .next t) : t.Inv := by
  obtain rfl | rfl | ⟨reason, rfl⟩ | ⟨running, i, executed⟩ := State.issue_cases next
  · exact h
  · exact h.of_same rfl rfl id rfl
  · exact h.raiseHalt reason
  · exact h.exec running executed

theorem State.Inv.keyPress {s : State} (h : s.Inv) (k : Key) : (s.keyPress k).Inv := by
  by_cases waiting : s.status = .waitingForKey
  · have pcEven : s.pc.toNat % 2 = 0 := h.pcEven
    rw [State.keyPress_of_waiting waiting]
    refine ⟨?_, h.stackEven, (fun running => by cases running), h.memCanonical⟩
    rw [evenAddr, advanced_toNat (h.waitCanComplete waiting)]
    omega
  · rwa [State.keyPress_of_not_waiting waiting]

theorem reset_inv : State.reset.Inv where
  pcEven := rfl
  stackEven j := by rw [reset_stack]; rfl
  waitCanComplete waiting := by cases waiting
  memCanonical := reset_mem_wf

/-- Settles O45: each event keeps the invariants; for an instruction, `PC` by where its form goes and the stack and memory
by what it writes. -/
theorem everyStepKeepsTheInvariants : Obligations.EveryStepKeepsTheInvariants := by
  intro s t hs h
  refine step_keeps (P := State.Inv) (fun s rest hs => hs.of_same rfl rfl id rfl)
    (fun s t r hs hissue => hs.issue hissue) (fun s k hs => hs.keyPress k) (fun s k hs => hs.of_same rfl rfl id rfl)
    (fun s hs => ?_) (fun s on hs => hs.of_same rfl rfl id rfl) (fun s dt order hs => ?_) hs h
  · exact ⟨reset_inv.pcEven, reset_inv.stackEven, reset_inv.waitCanComplete, hs.memCanonical⟩
  · rw [State.elapse_eq]
    exact hs.of_same rfl rfl id rfl

/-- Settles O46: the configuration and the budgets of the state after reset are evaluated. -/
theorem resetStateHasTheInvariants : Obligations.ResetStateHasTheInvariants :=
  ⟨reset_inv, by decide +kernel, ⟨le_rfl, one_pos⟩, ⟨le_rfl, one_pos⟩⟩

/-! ### `STATUS` (rule R30) -/

theorem State.keyPress_status (s : State) (k : Key) :
    (s.keyPress k).status = if s.status = .waitingForKey then .running else s.status := by
  by_cases waiting : s.status = .waitingForKey
  · rw [State.keyPress_of_waiting waiting, if_pos waiting]
  · rw [State.keyPress_of_not_waiting waiting, if_neg waiting]

theorem step_of_cycleIsNext {s : State} (h : s.cycleIsNext) :
    ∃ rest, step s = State.issue { s with pending := rest } .cycle := by
  obtain nonePending | ⟨rest, hp⟩ := h
  · exact ⟨s.pending, step_of_none_pending nonePending⟩
  · exact ⟨rest, step_of_pending hp⟩

/-- An instruction that halts leaves `PC`. -/
theorem exec_pc_of_isHalted {i : Instr} {s t : State} (running : s.status = .running) (next : exec i s = .next t)
    (halted : t.isHalted) : t.pc = s.pc := by
  obtain ⟨r, hr⟩ := halted
  rw [haltingInstructionHasNoOtherEffect i s t r running next hr]

theorem State.cycle_pc_of_isHalted {s t : State} (h : s.cycle = .next t) (halted : t.isHalted) : t.pc = s.pc := by
  obtain ⟨-, rfl⟩ | ⟨-, r, rfl⟩ | ⟨running, _, i, -, -, executed⟩ := State.cycle_cases h
  · rfl
  · rfl
  · exact exec_pc_of_isHalted running executed halted

/-- What a running engine's cycle leaves in `STATUS`. -/
theorem State.cycle_status_of_decoded {s t : State} {i : Instr} (running : s.status = .running)
    (inMemory : s.pc.toNat ≤ pcMax) (decoded : decodeWord s.wordAtPc = .ok i) (next : s.cycle = .next t) :
    (∀ r, raisedHalt i s = some r → t.status = .halted r) ∧
    (raisedHalt i s = none → (∃ x, i = .ldVxK x) → t.status = .waitingForKey) ∧
    (raisedHalt i s = none → (∀ x, i ≠ .ldVxK x) → t.status = .running) := by
  rw [State.cycle_of_decoded running (State.fetch_of_le inMemory) decoded] at next
  obtain rfl := executed_of_next next
  refine ⟨fun r raised => ?_, fun noHalt ⟨x, isWait⟩ => ?_, fun noHalt noWait => ?_⟩
  · rw [State.executed_of_raised raised]; rfl
  · subst isWait
    rw [State.executed_of_not_raised noHalt]; rfl
  · rw [State.executed_of_not_raised noHalt, State.completed_status]
    cases i
    case ldVxK x => exact absurd rfl (noWait x)
    all_goals exact running

theorem State.issue_cycle_of_idle {s : State} (idle : s.status ≠ .running ∨ s.run = false) :
    s.issue .cycle = .next s :=
  idle.elim State.issue_cycle_of_not_running (State.issue_of_paused · .cycle)

theorem State.issue_tick_status {s t : State} (h : s.issue .tick = .next t) : t.status = s.status := by
  cases hrun : s.run with
  | false => rw [State.issue_of_paused hrun] at h; cases h; rfl
  | true => rw [State.issue_tick hrun] at h; cases h; rfl

/-- Settles O44: each input acts on the state without it, and a cycle request to a running engine is a cycle. -/
theorem statusTransitionsAndNoOthers : Obligations.StatusTransitionsAndNoOthers := by
  refine ⟨fun s t rest hp h => ?_, fun s t k rest hp h => ?_, fun s t input rest hp other h => ?_,
    fun s t isNext idle h => ?_, fun s t isNext running run h => ?_⟩
  · rw [step_of_pending hp] at h
    obtain rfl := Host.Outcome.next.inj h
    rfl
  · rw [step_of_pending hp] at h
    obtain rfl := Host.Outcome.next.inj h
    exact State.keyPress_status _ k
  · rw [step_of_pending hp] at h
    obtain rfl | ⟨k, rfl⟩ | ⟨b, rfl⟩ | ⟨dt, order, rfl⟩ := other
    · exact State.issue_tick_status (s := { s with pending := rest }) h
    · obtain rfl := Host.Outcome.next.inj h
      rfl
    · obtain rfl := Host.Outcome.next.inj h
      rfl
    · obtain rfl := Host.Outcome.next.inj h
      rw [State.elapse_eq]
  · obtain ⟨rest, hstep⟩ := step_of_cycleIsNext isNext
    rw [hstep, State.issue_cycle_of_idle (s := { s with pending := rest }) idle] at h
    rw [← Host.Outcome.next.inj h]
  · obtain ⟨rest, hstep⟩ := step_of_cycleIsNext isNext
    have cycle : State.cycle { s with pending := rest } = .next t := by
      rw [← h, hstep]; exact (State.issue_cycle (s := { s with pending := rest }) run).symm
    refine ⟨fun past => ?_, fun inMemory illegal => ?_,
      fun i inMemory decoded =>
        State.cycle_status_of_decoded (s := { s with pending := rest }) running inMemory decoded cycle,
      State.cycle_pc_of_isHalted (s := { s with pending := rest }) cycle⟩
    · rw [State.cycle_of_fetch_past (s := { s with pending := rest }) running past] at cycle
      rw [← Host.Outcome.next.inj cycle]; rfl
    · rw [State.cycle_of_illegal (s := { s with pending := rest }) running inMemory illegal] at cycle
      rw [← Host.Outcome.next.inj cycle]; rfl

end Sys2Proof.Machine
end

section
/-!
PROOFS. Loads, arithmetic, logic, shifts, random, and the timer forms (42_load_alu.md, 45_keypad_timers.md section 2).
-/
namespace Sys2Proof.Machine

/-! ### What a form that writes registers leaves -/

/-- `t` is `s` at the next instruction, with registers changed and nothing else. -/
def advancedWithRegisters (s t : State) : Prop :=
  t.pc.toNat = s.pc.toNat + 2 ∧ t = { s with v := t.v, pc := t.pc } ∧ ∀ a, t.readByte a = s.readByte a

/-- A form that writes `V[x]` alone and advances. -/
theorem exec_of_writeV {i : Instr} {s : State} {x : Reg} {b : Byte} {n : Nat} (inMemory : s.pc.toNat + 2 ≤ pcMax)
    (hexec : exec i s = s.finish (s.writeV x b) 2) (hb : b.toNat = n) :
    ∃ t, exec i s = .next t ∧ (t.readV x).toNat = n ∧ (∀ z, z ≠ x → t.readV z = s.readV z) ∧
      advancedWithRegisters s t := by
  subst hb
  exact ⟨_, hexec.trans (State.finish_of_le inMemory), congrArg BitVec.toNat (State.readV_writeV_same s x b),
    fun _ hz => State.readV_writeV_other s b hz, advanced_toNat inMemory, rfl, State.readByte_congr rfl⟩

/-- A form that writes a result to `V[x]`, then a flag to `VF` (rule R161), and advances. -/
theorem exec_of_writeResultFlag {i : Instr} {s : State} {x : Reg} {r f : Byte} {n m : Nat}
    (inMemory : s.pc.toNat + 2 ≤ pcMax) (hexec : exec i s = s.finish (s.writeResultFlag x r f) 2) (hr : r.toNat = n)
    (hf : f.toNat = m) :
    ∃ t, exec i s = .next t ∧ (t.readV 15).toNat = m ∧ (x ≠ 15 → (t.readV x).toNat = n) ∧
      (∀ z, z ≠ x → z ≠ 15 → t.readV z = s.readV z) ∧ advancedWithRegisters s t := by
  subst hr hf
  have read := fun z => s.readV_writeResultFlag x z r f
  refine ⟨_, hexec.trans (State.finish_of_le inMemory), congrArg BitVec.toNat ((read 15).trans (if_pos rfl)),
    fun hx => congrArg BitVec.toNat ((read x).trans ?_), fun z hzx hz => (read z).trans ?_, advanced_toNat inMemory, rfl,
    State.readByte_congr rfl⟩
  · rw [if_neg hx, if_pos rfl]
  · rw [if_neg hz, if_neg hzx]

/-! ### Values over the integers (rule R127) -/

theorem flagByte_toNat (b : Bool) : (flagByte b).toNat = if b then 1 else 0 := by
  cases b <;> rfl

theorem carry_toNat (a b : Byte) : (carry a b).toNat = if a.toNat + b.toNat > 255 then 1 else 0 := by
  rw [carry, flagByte_toNat]
  simp only [decide_eq_true_eq]

theorem notBorrow_toNat (a b : Byte) : (notBorrow a b).toNat = if a.toNat ≥ b.toNat then 1 else 0 := by
  rw [notBorrow, flagByte_toNat]
  simp only [decide_eq_true_eq]

theorem sub_toNat_int (a b : Byte) : ((a - b).toNat : Int) = ((a.toNat : Int) - (b.toNat : Int)) % 256 := by
  have ha := a.isLt
  have hb := b.isLt
  rw [BitVec.toNat_sub]
  omega

theorem shiftedRight_toNat (b : Byte) : (b >>> 1).toNat = b.toNat / 2 := by
  rw [BitVec.toNat_ushiftRight, Nat.shiftRight_eq_div_pow, pow_one]

theorem shiftedLeft_toNat (b : Byte) : (b <<< 1).toNat = 2 * b.toNat % 256 := by
  rw [BitVec.toNat_shiftLeft, Nat.shiftLeft_eq, pow_one, Nat.mul_comm]

theorem shiftedOutRight_toNat (b : Byte) : (shiftedOutRight b).toNat = b.toNat % 2 := by
  have bit : b.getLsbD 0 = decide (b.toNat % 2 = 1) := Nat.testBit_zero _
  rw [shiftedOutRight, flagByte_toNat, bit]
  simp only [decide_eq_true_eq]
  split <;> omega

theorem shiftedOutLeft_toNat (b : Byte) : (shiftedOutLeft b).toNat = b.toNat / 128 := by
  have hb := b.isLt
  have bit : b.getLsbD 7 = decide (b.toNat / 2 ^ 7 % 2 = 1) := Nat.testBit_eq_decide_div_mod_eq
  rw [shiftedOutLeft, flagByte_toNat, bit]
  simp only [decide_eq_true_eq]
  split <;> omega

theorem State.shiftSource_toNat (s : State) (x y : Reg) :
    (s.shiftSource x y).toNat = if s.config.quirkShiftUsesVy then (s.readV y).toNat else (s.readV x).toNat :=
  apply_ite BitVec.toNat _ _ _

/-! ### The forms -/

/-- Settles O21: each form writes one byte to `V[x]`, whose value is its operation's over the integers. -/
theorem loadsAndLogicWriteVxAlone : Obligations.LoadsAndLogicWriteVxAlone := by
  intro x y kk s inMemory
  simp only [List.forall_mem_cons]
  exact ⟨exec_of_writeV inMemory rfl rfl, exec_of_writeV inMemory rfl (BitVec.toNat_add _ _),
    exec_of_writeV inMemory rfl rfl, exec_of_writeV inMemory rfl (BitVec.toNat_or _ _),
    exec_of_writeV inMemory rfl (BitVec.toNat_and _ _), exec_of_writeV inMemory rfl (BitVec.toNat_xor _ _),
    List.forall_mem_nil _⟩

/-- Settles O22: the result is the sum and the flag the carry. -/
theorem addWritesSumThenCarry : Obligations.AddWritesSumThenCarry := by
  intro x y s inMemory
  exact exec_of_writeResultFlag inMemory rfl (BitVec.toNat_add _ _) (carry_toNat _ _)

/-- A form that subtracts `b` from `a` and flags not-borrow. -/
theorem exec_of_subtraction {i : Instr} {s : State} {x : Reg} {a b : Byte} (inMemory : s.pc.toNat + 2 ≤ pcMax)
    (hexec : exec i s = s.finish (s.writeResultFlag x (a - b) (notBorrow a b)) 2) :
    ∃ t, exec i s = .next t ∧ (t.readV 15).toNat = (if a.toNat ≥ b.toNat then 1 else 0) ∧
      (x ≠ 15 → ((t.readV x).toNat : Int) = ((a.toNat : Int) - (b.toNat : Int)) % 256) ∧
      (∀ z, z ≠ x → z ≠ 15 → t.readV z = s.readV z) ∧ advancedWithRegisters s t := by
  obtain ⟨t, next, flag, result, frame⟩ := exec_of_writeResultFlag inMemory hexec rfl (notBorrow_toNat a b)
  exact ⟨t, next, flag, fun hx => by rw [result hx, sub_toNat_int], frame⟩

/-- Settles O23: both forms are a subtraction; `SUBN` has the operands exchanged. -/
theorem subtractionsWriteDifferenceThenNotBorrow : Obligations.SubtractionsWriteDifferenceThenNotBorrow := by
  intro x y s inMemory
  simp only [List.forall_mem_cons]
  exact ⟨exec_of_subtraction inMemory rfl, exec_of_subtraction inMemory rfl, List.forall_mem_nil _⟩

/-- Settles O24: both forms shift the source the quirk selects and put the bit shifted out in `VF`. -/
theorem shiftsWriteResultThenBitOut : Obligations.ShiftsWriteResultThenBitOut := by
  intro x y s b inMemory hb
  have source : (s.shiftSource x y).toNat = b := (s.shiftSource_toNat x y).trans hb.symm
  simp only [List.forall_mem_cons]
  refine ⟨exec_of_writeResultFlag inMemory rfl ?_ ?_, exec_of_writeResultFlag inMemory rfl ?_ ?_, List.forall_mem_nil _⟩
  · rw [shiftedRight_toNat, source]
  · rw [shiftedOutRight_toNat, source]
  · rw [shiftedLeft_toNat, source]
  · rw [shiftedOutLeft_toNat, source]

/-- Settles O25: the byte written is the masked draw, and the count of draws moves on. -/
theorem randomWritesAMaskedFreeByte : Obligations.RandomWritesAMaskedFreeByte := by
  intro x kk s inMemory
  have value := State.readV_writeV_same s x (Config.randomByte s.rndDraws &&& kk)
  refine ⟨_, State.finish_of_le inMemory, value, ?_, fun z hz => State.readV_writeV_other s _ hz, rfl,
    advanced_toNat inMemory, rfl, State.readByte_congr rfl⟩
  refine (congrArg (· &&& ~~~kk) value).trans ?_
  rw [BitVec.and_assoc, BitVec.and_not_self]
  exact BitVec.and_zero

/-- Settles O37: each form writes one field. -/
theorem timerFormsCopyOneByte : Obligations.TimerFormsCopyOneByte := by
  intro x s inMemory
  exact ⟨⟨_, State.finish_of_le inMemory, State.readV_writeV_same s x s.dt, fun _ hz => State.readV_writeV_other s _ hz,
      advanced_toNat inMemory, rfl, State.readByte_congr rfl⟩,
    ⟨_, State.finish_of_le inMemory, rfl, advanced_toNat inMemory, rfl, State.readByte_congr rfl⟩,
    ⟨_, State.finish_of_le inMemory, rfl, advanced_toNat inMemory, rfl, State.readByte_congr rfl⟩⟩

end Sys2Proof.Machine
end

section
/-!
PROOFS. The address register and memory (43_index_memory.md, 20_memory.md section 5), the loader (70_reset_and_hazards.md
section 2) and the output ports (10_state.md section 10).
-/
namespace Sys2Proof.Machine

/-! ### The address register (rules R191 to R193, R197) -/

/-- A form that writes `I` alone and advances. -/
theorem exec_of_writeI {i : Instr} {s : State} {a : Addr} {n : Nat} (inMemory : s.pc.toNat + 2 ≤ pcMax)
    (hexec : exec i s = s.finish { s with i := a } 2) (ha : a.toNat = n) :
    ∃ t, exec i s = .next t ∧ t.i.toNat = n ∧ t.pc.toNat = s.pc.toNat + 2 ∧ t = { s with i := t.i, pc := t.pc } ∧
      ∀ a, t.readByte a = s.readByte a :=
  ⟨_, hexec.trans (State.finish_of_le inMemory), ha, advanced_toNat inMemory, rfl, State.readByte_congr rfl⟩

/-- Settles O26: each form writes an address whose value is its sum mod 4096. -/
theorem addressFormsWriteIAlone : Obligations.AddressFormsWriteIAlone := by
  intro x nnn s inMemory
  simp only [List.forall_mem_cons]
  exact ⟨exec_of_writeI inMemory rfl rfl, exec_of_writeI inMemory rfl (BitVec.toNat_ofNat _ _),
    exec_of_writeI inMemory rfl (BitVec.toNat_ofNat _ _), List.forall_mem_nil _⟩

theorem State.bumpedI_toNat (s : State) (x : Reg) :
    (s.bumpedI x).toNat = if s.config.quirkLoadStoreIncI then (s.i.toNat + x.val + 1) % 4096 else s.i.toNat := by
  unfold State.bumpedI
  split
  · exact BitVec.toNat_ofNat _ _
  · rfl

/-! ### Data accesses (rules R61, R194 to R196, R244) -/

/-- Settles O33: the check of the data comes first in `dataHalt`. -/
theorem dataAccessPastMemoryHalts : Obligations.DataAccessPastMemoryHalts := by
  intro x y n s
  simp only [List.forall_mem_cons]
  exact ⟨fun bytes past => exec_of_raised (if_pos ⟨bytes, past⟩),
    fun bytes past => exec_of_raised (if_pos ⟨bytes, past⟩), fun bytes past => exec_of_raised (if_pos ⟨bytes, past⟩),
    fun bytes past => exec_of_raised (if_pos ⟨bytes, past⟩),
    List.forall_mem_nil _⟩

theorem State.readByte_place_three (s : State) (a : Nat) (b0 b1 b2 : Byte) :
    State.readByte { s with mem := s.mem.place a [b0, b1, b2] } a = b0 ∧
    State.readByte { s with mem := s.mem.place a [b0, b1, b2] } (a + 1) = b1 ∧
    State.readByte { s with mem := s.mem.place a [b0, b1, b2] } (a + 2) = b2 ∧
    ∀ k, k < a ∨ a + 2 < k → State.readByte { s with mem := s.mem.place a [b0, b1, b2] } k = s.readByte k := by
  refine ⟨?_, ?_, ?_, fun k outside => ?_⟩ <;> rw [State.readByte_place]
  · simp
  · simp
  · simp
  · have beside : ¬ (a ≤ k ∧ k < a + [b0, b1, b2].length) := by
      simp only [List.length_cons, List.length_nil]
      omega
    rw [dif_neg beside]

/-- Settles O28: the state after the store has the three digits placed, and they read back in order. -/
theorem decimalStoreWritesThreeDigits : Obligations.DecimalStoreWritesThreeDigits := by
  intro x s inRam inMemory
  obtain ⟨h, t, o, digits, hundreds, tens, ones⟩ := decimalDigits_values (s.readV x)
  have noHalt : raisedHalt (.ldBVx x) s = none := dataHalt_eq_none_iff.mpr ⟨.inl (Nat.succ_le_succ inRam), inMemory⟩
  obtain ⟨first, second, third, others⟩ := s.readByte_place_three s.i.toNat h t o
  rw [← digits] at first second third others
  exact ⟨s.completed (.ldBVx x), exec_completes noHalt, (congrArg _ first).trans hundreds,
    (congrArg _ second).trans tens, (congrArg _ third).trans ones, others, advanced_toNat inMemory, rfl⟩

/-- Settles O29: the state after the store has the memory of `storeRegs`. -/
theorem storeWritesTheRegistersInOrder : Obligations.StoreWritesTheRegistersInOrder := by
  intro x s inRam inMemory
  have noHalt : raisedHalt (.ldMemVx x) s = none := dataHalt_eq_none_iff.mpr ⟨.inl (Nat.succ_le_succ inRam), inMemory⟩
  have bytes := storeRegs_readByte s.data s.data (regsThrough x)
  refine ⟨s.completed (.ldMemVx x), exec_completes noHalt, fun j hj => (bytes _).1 j ((mem_regsThrough x j).mpr hj) rfl,
    fun a outside => (bytes a).2 fun j hj => ?_, s.bumpedI_toNat x, advanced_toNat inMemory, rfl⟩
  have hle := (mem_regsThrough x j).mp hj
  have sameI : s.data.i.toNat = s.i.toNat := rfl
  omega

/-- Settles O30: the state after the load has the registers of `loadRegs`. -/
theorem loadReadsTheRegistersInOrder : Obligations.LoadReadsTheRegistersInOrder := by
  intro x s inRam inMemory
  have noHalt : raisedHalt (.ldVxMem x) s = none := dataHalt_eq_none_iff.mpr ⟨.inl (Nat.succ_le_succ inRam), inMemory⟩
  have loaded := loadRegs_readV s.data s.data (regsThrough x)
  exact ⟨s.completed (.ldVxMem x), exec_completes noHalt,
    fun j hj => (loaded j).trans (if_pos ((mem_regsThrough x j).mpr hj)),
    fun j hj => (loaded j).trans (if_neg fun h => Nat.not_le.mpr hj ((mem_regsThrough x j).mp h)),
    State.readByte_congr rfl, s.bumpedI_toNat x, advanced_toNat inMemory, rfl⟩

/-- Settles O31: the load reads the bytes the store has written. -/
theorem storeThenLoadRestoresTheRegisters : Obligations.StoreThenLoadRestoresTheRegisters := by
  intro x s w inRam hpc
  obtain ⟨t, stored, bytes, -, -, tpc, -⟩ := storeWritesTheRegistersInOrder x s inRam (by omega)
  obtain ⟨u, loaded, registers, -⟩ := loadReadsTheRegistersInOrder x { t with i := s.i, v := w } inRam
    (by show t.pc.toNat + 2 ≤ pcMax; omega)
  exact ⟨t, u, stored, loaded, fun j hj => (registers j hj).trans (bytes j hj)⟩

/-! ### A store before the next fetch (rule R77) -/

/-- The word fetched after an instruction that has advanced by 2 is that of the two bytes there. -/
theorem fetch_after_advance {s t : State} (tpc : t.pc.toNat = s.pc.toNat + 2) (inMemory : s.pc.toNat + 2 ≤ pcMax) :
    t.fetch = .ok (wordOfBytes (t.readByte (s.pc.toNat + 2)) (t.readByte (s.pc.toNat + 3))) := by
  rw [State.fetch_of_le (tpc ▸ inMemory), tpc]

/-- Settles O32: the two bytes fetched are bytes the store has written or left, by O29 and O28. -/
theorem storeIsSeenByTheNextFetch : Obligations.StoreIsSeenByTheNextFetch := by
  intro x s inMemory
  refine ⟨fun inRam => ?_, fun inRam => ?_⟩
  · obtain ⟨t, stored, bytes, others, -, tpc, -⟩ := storeWritesTheRegistersInOrder x s inRam inMemory
    exact ⟨t, _, _, _, stored, fetch_after_advance tpc inMemory, wordOfBytes_toNat _ _,
      fun j hj here => here ▸ bytes j hj, fun j hj here => here ▸ bytes j hj, others _, others _⟩
  · obtain ⟨t, stored, hundreds, tens, ones, others, tpc, -⟩ := decimalStoreWritesThreeDigits x s inRam inMemory
    refine ⟨t, _, _, _, stored, fetch_after_advance tpc inMemory, wordOfBytes_toNat _ _, ?_, others _, others _⟩
    simp only [List.forall_mem_cons]
    exact ⟨⟨fun here => here ▸ hundreds, fun here => here ▸ hundreds⟩,
      ⟨fun here => here ▸ tens, fun here => here ▸ tens⟩,
      ⟨fun here => here ▸ ones, fun here => here ▸ ones⟩, List.forall_mem_nil _⟩

/-! ### The loader (rules R71, R285) -/

theorem programFits_iff (image : List Byte) : programFits image = true ↔ image.length ≤ 3584 := by
  have base : progBase.toNat = 512 := rfl
  have size : memSize = 4096 := rfl
  rw [programFits, decide_eq_true_iff, base, size]
  omega

theorem State.readByte_loadBytes_of_lt (s : State) {a k : Nat} {bytes : List Byte} (h : k < bytes.length) :
    (s.loadBytes a bytes).readByte (a + k) = bytes[k] := by
  refine (s.readByte_place a (a + k) bytes).trans ?_
  rw [dif_pos ⟨Nat.le_add_right a k, Nat.add_lt_add_left h a⟩]
  simp only [Nat.add_sub_cancel_left]

theorem State.readByte_loadBytes_of_outside (s : State) {a k : Nat} {bytes : List Byte}
    (h : k < a ∨ a + bytes.length ≤ k) : (s.loadBytes a bytes).readByte k = s.readByte k :=
  (s.readByte_place a k bytes).trans (dif_neg (by omega))

/-- Settles O53: both operations of the loader place a list of bytes. -/
theorem loaderPlacesFontAndProgram : Obligations.LoaderPlacesFontAndProgram := by
  refine ⟨fun s d r => ?_, fun s a outside => ?_, fun s image fits => ?_, fun s image tooLong => ?_⟩
  · have inFont : 5 * d.val + r.val < s.config.fontData.toList.length := by simp; omega
    rw [Nat.add_assoc, State.loadFont, State.readByte_loadBytes_of_lt s inFont, Vector.getElem_toList]
  · refine State.readByte_loadBytes_of_outside s ?_
    rw [Vector.length_toList]
    omega
  · exact ⟨_, if_pos ((programFits_iff image).mpr fits), fun k hk => s.readByte_loadBytes_of_lt hk,
      fun a outside => s.readByte_loadBytes_of_outside outside⟩
  · exact if_neg fun fits => Nat.not_le.mpr tooLong ((programFits_iff image).mp fits)

/-! ### The output ports (rules R50, R51, R240) -/

theorem State.soundOn_iff (s : State) : s.soundOn = true ↔ s.st ≠ 0#8 := by
  rw [State.soundOn, decide_eq_true_iff, gt_iff_lt, Nat.pos_iff_ne_zero, ne_eq, ne_eq, BitVec.toNat_eq]
  rfl

theorem State.outputs_of_halted {s : State} {r : HaltReason} (h : s.status = .halted r) :
    s.statusCode = 2#2 ∧ s.haltCode = haltReasonCode r ∧ s.haltInfo = haltReasonInfo r := by
  simp only [State.statusCode, State.haltCode, State.haltInfo, h, and_self]

/-- Settles O54: the ports are functions of `ST` and of `STATUS`, evaluated at each reason. -/
theorem outputsShowStatusAndSound : Obligations.OutputsShowStatusAndSound := by
  intro s
  refine ⟨s.soundOn_iff, fun running => ?_, fun waiting => ?_, fun w => State.outputs_of_halted, fun a ha halted => ?_,
    State.outputs_of_halted, State.outputs_of_halted, fun a halted => ?_⟩
  · simp only [State.statusCode, State.haltCode, running, and_self]
  · simp only [State.statusCode, State.haltCode, waiting, and_self]
  · obtain ⟨status, code, info⟩ := State.outputs_of_halted halted
    refine ⟨status, code, ?_⟩
    rw [info, haltReasonInfo, BitVec.toNat_ofNat, Nat.mod_eq_of_lt ha]
  · obtain ⟨status, code, info⟩ := State.outputs_of_halted halted
    refine ⟨status, code, ?_⟩
    rw [info, haltReasonInfo, BitVec.toNat_setWidth_of_le (by decide)]

end Sys2Proof.Machine
end
